-- ==== Sys2Proof/Config.lean ====
section
/-! DEFINITION. The parameters of a build of the block, XLEN and NMAX (spec/00_scope.md section 4).
They are plain data held in `State.cfg`, so that every statement about the machine is one about every
configuration (log 1, DESIGN CHOICE). LAT is not modelled (R99; log 9). -/

namespace Sys2Proof

/-- XLEN and NMAX, fixed when the block is built (spec/70_reset_and_hazards.md R92). -/
structure Config where
  /-- XLEN: the width in bits of each operand (R2). -/
  xlen : Nat
  /-- NMAX: the capacity of the output buffer in bytes (R3). -/
  nmax : Nat
  deriving DecidableEq, Repr

/-- The constraints of R2 and R3: XLEN a multiple of 8 and at least 8, XLEN/8 ≤ NMAX ≤ 2^(XLEN-1) - 1. -/
abbrev Config.Legal (c : Config) : Prop :=
  c.xlen % 8 = 0 ∧ 8 ≤ c.xlen ∧ c.xlen / 8 ≤ c.nmax ∧ c.nmax ≤ 2 ^ (c.xlen - 1) - 1

/-- The reference configuration of the spec: XLEN = 64, NMAX = 16 (spec/00_scope.md section 4). -/
def Config.reference : Config := { xlen := 64, nmax := 16 }

end Sys2Proof
end

