-- ==== Sys2Proof/Word.lean ====
section
/-! DEFINITION. The plainest data of the block: a byte and a request word as it stands at the request port. -/

namespace Sys2Proof

/-- A byte (octet) of the output buffer: an 8-bit vector (spec/00_scope.md section 5.1). -/
abbrev Byte := BitVec 8

/-- A string of bits offered at the request port. A request word proper has `2*XLEN` bits
(spec/30_encoding.md R32); the length is kept beside the bits because XLEN is a parameter of the
build, and a string of another length is no request (R36; log 11). -/
structure RequestWord where
  width : Nat
  bits  : BitVec width
  deriving DecidableEq, Repr

end Sys2Proof
end

