-- ==== Sys2Proof/Syntax.lean ====
section
/-! DEFINITION. The operations of the block: one row of spec/opcode_table.json, one constructor. -/

namespace Sys2Proof

/-- The block's operations (spec/30_encoding.md R34: there is one; R38: no pseudo-operation). -/
inductive Instr where
  /-- ENCODE(VALUE, OBC), R40: the two operands as XLEN-bit vectors, with the width they have. -/
  | encode (xlen : Nat) (value obc : BitVec xlen)
  deriving DecidableEq, Repr

end Sys2Proof
end

