-- ==== Sys2Proof/WellFormed.lean ====
section
/-! DEFINITION. Which instructions are operations of a block of a given configuration. -/

namespace Sys2Proof

/-- The operands have the width XLEN of the block (R2: one width for both operands). Every pair of
XLEN-bit vectors is a legal request (R34, R35), so this is the whole check. -/
def WellFormed (c : Config) : Instr → Bool
  | .encode xlen _ _ => xlen == c.xlen

end Sys2Proof
end

