-- ==== Sys2Proof/Decode.lean ====
section
/-! DEFINITION. The request format REQ (spec/30_encoding.md R32 to R36): the decoder, total on every
string of bits and refusing by name, and after it the encoder. -/

namespace Sys2Proof

/-- Why a string of bits is not a request. -/
inductive DecodeError where
  /-- It does not have 2*XLEN bits (R36: every request is one word of 2*XLEN bits). -/
  | wrongLength
  deriving DecidableEq, Repr

/-- The number of bits of a request word, 2*XLEN (R32). -/
def requestBits (xlen : Nat) : Nat := xlen + xlen

/-- VALUE = REQ[XLEN-1:0] (R33). -/
def valueField (xlen : Nat) (r : RequestWord) : BitVec xlen := r.bits.extractLsb' 0 xlen

/-- OBC = REQ[2*XLEN-1:XLEN] (R33). -/
def obcField (xlen : Nat) (r : RequestWord) : BitVec xlen := r.bits.extractLsb' xlen xlen

/-- Decoding (R34): every word of 2*XLEN bits is ENCODE of its two fields. -/
def decode (c : Config) (r : RequestWord) : Except DecodeError Instr :=
  if r.width = requestBits c.xlen then
    .ok (.encode c.xlen (valueField c.xlen r) (obcField c.xlen r))
  else
    .error .wrongLength

/-- The request word of an instruction, REQ = (OBC, VALUE) with OBC in the high half (R32). -/
def encode : Instr → RequestWord
  | .encode xlen value obc => { width := xlen + xlen, bits := obc ++ value }

/-- The request word that the opcode table's bits `w` (`nbits` of them, bit 0 the least significant,
zeros above) stand for at width XLEN. Bits that do not fit a request word leave a string of `nbits`
bits, which the decoder refuses. -/
def tableRequest (xlen nbits w : Nat) : RequestWord :=
  if w % 2 ^ nbits < 2 ^ requestBits xlen then
    { width := requestBits xlen, bits := BitVec.ofNat _ (w % 2 ^ nbits) }
  else
    { width := nbits, bits := BitVec.ofNat _ w }

/-- The instruction the decoder reads from the opcode table's bits, in the reference configuration
(log 1). -/
def decodeTableWord (nbits w : Nat) : Option Instr :=
  (decode Config.reference (tableRequest Config.reference.xlen nbits w)).toOption

end Sys2Proof
end

