-- ==== Sys2Proof/Machine/State.lean ====
section
/-! DEFINITION. The state of the block and what the host does to it, as plain data, and the state
after reset. -/

namespace Sys2Proof.Machine

/-- The values of CAUSE the block produces (spec/60_exceptions.md R72); 5, 6 and 7 are never produced
(spec/10_state.md R7: "a model may make CAUSE an enumeration of five constructors"; log 12). -/
inductive Cause where
  /-- 0 NONE: the value while FAULT = 0. -/
  | none
  /-- 1 ZERO_WIDTH (R73). -/
  | zeroWidth
  /-- 2 NEGATIVE_VALUE (R74). -/
  | negativeValue
  /-- 3 INSUFFICIENT_WIDTH (R75). -/
  | insufficientWidth
  /-- 4 CAPACITY (R76). -/
  | capacity
  deriving DecidableEq, Repr

/-- The two kinds of response (spec/40_encode.md R47). -/
inductive Response where
  | ok (bytes : List Byte)
  | fault (cause : Cause)
  deriving DecidableEq, Repr

/-- One act of the host at the block's ports (spec/10_state.md R18; log 2). -/
inductive HostAct where
  /-- Raises `req_valid` with this word and holds it until it is accepted (R93). -/
  | request (word : RequestWord)
  /-- Takes the response presented: `rsp_ready` meets `rsp_valid` (R18, R94). -/
  | take
  /-- Applies `rst` (R89). -/
  | reset
  /-- Reads `rsp_ok` and `rsp_cause` as meaningful (R97). -/
  | readResponse
  /-- Breaks R93: shows a word, then before it is accepted shows another or (`none`) drops `req_valid`. -/
  | unstable (shown : RequestWord) (later : Option RequestWord)
  deriving DecidableEq, Repr

/-- Why the machine stops with no next state. -/
inductive Fault where
  /-- FAULT = 1 and no reset: no step is enabled (R46, R81, R96). Raised by `exec` and by `step`
  where the host presents a request or does nothing. Safe (log 8). -/
  | stuck
  /-- An access to OBUF at an index not below NMAX, which does not exist (R20). Raised by `readByte`
  and `storeByte`, never by ENCODE (R28). Safe (log 7). -/
  | noSuchIndex
  /-- A read of OBUF at an index not below OLEN, whose value is unspecified (R9). Raised by
  `readByte`, never by `step`. Safe (log 3). -/
  | unspecifiedByte
  deriving DecidableEq, Repr

/-- Why the machine gives a run no meaning. -/
inductive Refusal where
  /-- The instruction has no meaning yet. Raised by no arm of `exec`. Safe. -/
  | notModelled (mnemonic : String)
  /-- An instruction whose operands are not XLEN bits wide is none of this block's (R2). Raised by
  `exec`. Safe (log 11). -/
  | wrongOperandWidth
  /-- The bits offered are no request word (R36). Raised by `step`. Safe (log 11). -/
  | noRequestWord (why : DecodeError)
  /-- The host acts before reset was ever applied (R92, U4). Raised by `step`. Safe (log 6). -/
  | beforeFirstReset
  /-- The host changed or dropped a request before it was accepted (R93, R97, U7). Raised by
  `step`. Safe (log 10). -/
  | unstableRequest
  /-- The host read `rsp_ok` or `rsp_cause` while `rsp_valid` = 0 (R97, U6). Raised by `step`.
  Safe (log 10). -/
  | responseNotValid
  deriving DecidableEq, Repr

/-- Byte-addressed memory as cells with strictly rising addresses; an address not listed has no
value (log 3). -/
abbrev Memory := List Host.Cell

/-- The machine: the four elements of spec/10_state.md R5, the response channel of R18, and the
model's own fields (INVENTORY.md, State). -/
structure State where
  /-- XLEN and NMAX of the build; nothing changes them (R92; log 1). -/
  cfg       : Config
  /-- FAULT (R6). -/
  fault     : Bool
  /-- CAUSE (R7). -/
  cause     : Cause
  /-- OLEN (R8). -/
  olen      : Nat
  /-- The defined bytes of OBUF (R9, R20). -/
  obuf      : Memory
  /-- The response presented and not yet delivered (R18, R91, R94; log 4). -/
  rsp       : Option Response
  /-- What the host does next, oldest first (log 2). -/
  script    : List HostAct
  /-- The responses delivered since reset, oldest first (R47, R98; log 5). -/
  delivered : List Response
  /-- Whether reset has been applied (R92; log 6). -/
  wasReset  : Bool
  deriving DecidableEq, Repr

/-- The state after reset (spec/70_reset_and_hazards.md R90), of a block of the reference
configuration (log 1), with a host that does nothing yet (log 2). -/
def State.reset : State where
  cfg       := Config.reference
  fault     := false
  cause     := .none
  olen      := 0
  obuf      := []
  rsp       := none
  script    := []
  delivered := []
  wasReset  := true

end Sys2Proof.Machine
end

