-- ==== Sys2Proof/Machine/Operands.lean ====
section
/-! DEFINITION. The operands of a request as integers and their bit-level sign tests
(spec/30_encoding.md R33, spec/41_input_validator.md R51). -/

namespace Sys2Proof.Machine

/-- `sint(v)`: the two's complement value of a bit vector (spec/00_scope.md section 5.1). -/
def sint {w : Nat} (v : BitVec w) : Int :=
  if v.getLsbD (w - 1) then (v.toNat : Int) - 2 ^ w else v.toNat

/-- `zero_width_fail` of R51: OBC negative, or all its bits zero. -/
def zeroWidthFail {w : Nat} (obc : BitVec w) : Bool :=
  obc.getLsbD (w - 1) || !(decide (∃ k : Fin w, obc.getLsbD k = true))

/-- `negative_fail` of R51: the top bit of VALUE. -/
def negativeFail {w : Nat} (value : BitVec w) : Bool := value.getLsbD (w - 1)

end Sys2Proof.Machine
end

