-- ==== Sys2Proof/Machine/LeadingZero.lean ====
section
/-! DEFINITION. Stage 2 of ENCODE, the leading-zero counter and the required byte count
(spec/42_leading_zero_counter.md). All of it is integer logic (R57). -/

namespace Sys2Proof.Machine

/-- How many of the bits k-1, k-2, … of `v`, from bit k-1 down, are 0 before the first 1. -/
def zerosBelow {w : Nat} (v : BitVec w) : Nat → Nat
  | 0 => 0
  | k + 1 => if v.getLsbD k then 0 else zerosBelow v k + 1

/-- `clz_W(v)` (R52). -/
def clz {w : Nat} (v : BitVec w) : Nat := zerosBelow v w

/-- BITLEN = XLEN - LZ (R53). -/
def bitLength {w : Nat} (v : BitVec w) : Nat := w - clz v

/-- REQB = max(1, ceil(BITLEN / 8)), in integer logic (BITLEN + 7) >> 3 raised to 1 (R54). -/
def requiredBytes {w : Nat} (v : BitVec w) : Nat := max 1 ((bitLength v + 7) >>> 3)

/-- `bitlen(n)` for an integer n ≥ 0 (R53). -/
def bitlen (n : Nat) : Nat := if n = 0 then 0 else Nat.log2 n + 1

/-- `reqbytes(n)` for an integer n ≥ 0 (R54). -/
def reqbytes (n : Nat) : Nat := max 1 ((bitlen n + 7) / 8)

end Sys2Proof.Machine
end

