-- ==== Sys2Proof/Machine/Flags.lean ====
section
/-! DEFINITION. What sets FAULT and CAUSE: the four checks of ENCODE in their order
(spec/41_input_validator.md, spec/43_byte_width_checker.md, spec/60_exceptions.md R78), the cause
codes (R72), and PAD (R62). There are no other flags (spec/10_state.md R15). -/

namespace Sys2Proof.Machine

/-- The 3-bit code of a cause (R72). -/
def causeCode : Cause → BitVec 3
  | .none => 0
  | .zeroWidth => 1
  | .negativeValue => 2
  | .insufficientWidth => 3
  | .capacity => 4

/-- The first check of ENCODE that fails, if one does: check 1 (R48), check 2 (R49), check 3 (R59),
check 4 (R60). REQB is computed only after checks 1 and 2 (R40). -/
def failedCheck {w : Nat} (nmax : Nat) (value obc : BitVec w) : Option Cause :=
  if ¬ (sint obc > 0) then some .zeroWidth
  else if ¬ (sint value ≥ 0) then some .negativeValue
  else if ¬ (sint obc ≥ requiredBytes value) then some .insufficientWidth
  else if ¬ (sint obc ≤ nmax) then some .capacity
  else none

/-- PAD = obc - REQB, the leading zero bytes of the result (R62). -/
def padding {w : Nat} (value obc : BitVec w) : Int := sint obc - requiredBytes value

end Sys2Proof.Machine
end

