-- ==== Sys2Proof/Machine/Ops.lean ====
section
/-! DEFINITION. The named operations over OBUF and the registers: access by byte, the response,
fault entry, delivery and reset. -/

namespace Sys2Proof.Machine

/-- The canonical form: addresses strictly rising. No entry can equal what an unlisted address reads
as, since an unlisted address has no value (log 3). -/
def Memory.wf : Memory → Bool
  | [] => true
  | [_] => true
  | x :: y :: m => decide (x.1 < y.1) && Memory.wf (y :: m)

/-- The byte listed at an address, if one is. -/
def Memory.read : Memory → Nat → Option Byte
  | [], _ => none
  | (a, b) :: m, i => if a = i then some b else Memory.read m i

/-- A byte put at an address, in canonical form. -/
def Memory.write : Memory → Nat → Byte → Memory
  | [], i, b => [(i, b)]
  | (a, x) :: m, i, b =>
    if i < a then (i, b) :: (a, x) :: m
    else if i = a then (i, b) :: m
    else (a, x) :: Memory.write m i b

/-- OBUF[i] as the host reads it (spec/00_scope.md section 5.3): defined for i < OLEN only (R9), and
no index at or above NMAX exists (R20). It changes nothing (R25). -/
def readByte (s : State) (i : Nat) : Except Fault Byte :=
  if s.cfg.nmax ≤ i then .error .noSuchIndex
  else if s.olen ≤ i then .error .unspecifiedByte
  else match Memory.read s.obuf i with
    | some b => .ok b
    | none => .error .unspecifiedByte

/-- MemWrite(OBUF + i, 1, b): one byte at one index (spec/20_memory.md R24, spec/44_byte_packer.md R70). -/
def storeByte (i : Nat) (b : Byte) (s : State) : Except Fault State :=
  if i < s.cfg.nmax then .ok { s with obuf := Memory.write s.obuf i b } else .error .noSuchIndex

/-- The bytes stored at consecutive indices from `i` up. -/
def storeFrom (i : Nat) : List Byte → State → Except Fault State
  | [], s => .ok s
  | b :: bs, s =>
    match storeByte i b s with
    | .ok t => storeFrom (i + 1) bs t
    | .error f => .error f

/-- No byte of OBUF is defined any more, and OLEN = 0 (R8, R9). -/
def withdraw (s : State) : State := { s with olen := 0, obuf := [] }

/-- The stores of a successful ENCODE and OLEN, together (R63, R64, R26): the bytes at 0, 1, …, and
nothing defined beyond them (R9, R27). -/
def storeResult (bytes : List Byte) (s : State) : Except Fault State :=
  match storeFrom 0 bytes (withdraw s) with
  | .ok t => .ok { t with olen := bytes.length }
  | .error f => .error f

/-- Presents a response (R18, R47). -/
def respond (r : Response) (s : State) : State := { s with rsp := some r }

/-- Fault entry with cause `c` (spec/60_exceptions.md R77): FAULT, CAUSE, OLEN and the response;
nothing is saved and control goes nowhere. -/
def raiseFault (c : Cause) (s : State) : State :=
  respond (.fault c) { withdraw s with fault := true, cause := c }

/-- Reset (spec/70_reset_and_hazards.md R89, R90), the only way out of a fault (R80): the same state
whatever was before, a request in flight discarded (R91); the build and the host's remaining acts
are no part of what it clears. -/
def applyReset (s : State) : State := { State.reset with cfg := s.cfg, script := s.script }

/-- Delivery of the response presented, if there is one (R18); no architectural state changes (R25). -/
def deliver (s : State) : State :=
  { s with rsp := none, delivered := s.delivered ++ s.rsp.toList }

end Sys2Proof.Machine
end

