-- ==== Sys2Proof/Machine/Packer.lean ====
section
/-! DEFINITION. Stage 4 of ENCODE, the big-endian byte packer (spec/44_byte_packer.md). -/

namespace Sys2Proof.Machine

/-- Byte `i` of the result: (value >> (8 * (obc - 1 - i))) mod 256, on unbounded numbers (R64, R4). -/
def resultByte (value obc i : Nat) : Byte := BitVec.ofNat 8 ((value >>> (8 * (obc - 1 - i))) % 256)

/-- The bytes of the result, index 0 first (R63, R64). -/
def packBytes (value obc : Nat) : List Byte := (List.range obc).map (resultByte value obc)

/-- Byte lane `k` of an operand, VALUE[8k+7 : 8k] for k < XLEN/8, and 0 where there is no such lane (R67). -/
def byteLane {w : Nat} (value : BitVec w) (k : Nat) : Byte :=
  if k < w / 8 then value.extractLsb' (8 * k) 8 else 0

/-- `OS2IP(b)`: the bytes read as a big-endian unsigned number (spec/00_scope.md section 5.2). -/
def os2ip (bytes : List Byte) : Nat := bytes.foldl (fun n b => n * 256 + b.toNat) 0

end Sys2Proof.Machine
end

