-- ==== Sys2Proof/Machine/Encode.lean ====
section
/-! DEFINITION. The meaning of ENCODE (spec/40_encode.md R40). -/

namespace Sys2Proof.Machine

/-- ENCODE(VALUE, OBC), R40: with FAULT = 1 there is no step (R46); the first failing check is a fault
entry (R77, R78); otherwise the bytes, OLEN and the response OK (R42). -/
def execEncode (xlen : Nat) (value obc : BitVec xlen) (s : State) :
    Host.Outcome State Fault Refusal :=
  if xlen ≠ s.cfg.xlen then .refused .wrongOperandWidth
  else if s.fault then .fault .stuck
  else
    match failedCheck s.cfg.nmax value obc with
    | some c => .next (raiseFault c s)
    | none =>
      let bytes := packBytes (sint value).toNat (sint obc).toNat
      match storeResult bytes s with
      | .ok t => .next (respond (.ok bytes) t)
      | .error f => .fault f

end Sys2Proof.Machine
end

