-- ==== Sys2Proof/Machine/Accept.lean ====
section
/-! DEFINITION. What one act of the host does to the block: acceptance of a request, delivery, reset,
and the acts the spec gives no meaning (spec/10_state.md R18, spec/40_encode.md R46,
spec/70_reset_and_hazards.md R89 to R97). -/

namespace Sys2Proof.Machine

/-- No rule applies to a block that was never reset (R92, U4; log 6). -/
def afterFirstReset (s : State) (o : Host.Outcome State Fault Refusal) :
    Host.Outcome State Fault Refusal :=
  if s.wasReset then o else .refused .beforeFirstReset

/-- The host presents nothing: the block waits (R87), and with FAULT = 1 it is stuck (R81). -/
def idle (s : State) : Host.Outcome State Fault Refusal :=
  if s.fault then .fault .stuck else .next s

/-- The host presents a request: never accepted with FAULT = 1 (R46, U8); it waits while a response is
not delivered (R18, R94); otherwise it is accepted and executed, whatever its operands (R46). -/
def presentRequest (word : RequestWord) (rest : List HostAct) (s : State) :
    Host.Outcome State Fault Refusal :=
  if s.fault then .fault .stuck
  else if s.rsp.isSome then .next s
  else
    match decode s.cfg word with
    | .ok i => exec i { s with script := rest }
    | .error e => .refused (.noRequestWord e)

/-- The host reads `rsp_ok` and `rsp_cause`: no effect while `rsp_valid` = 1 (R25), outside the spec
otherwise (R97, U6). -/
def readResponse (rest : List HostAct) (s : State) : Host.Outcome State Fault Refusal :=
  if s.rsp.isSome then .next { s with script := rest } else .refused .responseNotValid

/-- One act of the host, `rest` being what it does after it. -/
def perform (act : HostAct) (rest : List HostAct) (s : State) : Host.Outcome State Fault Refusal :=
  match act with
  | .reset => .next (applyReset { s with script := rest })
  | .request word => afterFirstReset s (presentRequest word rest s)
  | .take => afterFirstReset s (.next (deliver { s with script := rest }))
  | .readResponse => afterFirstReset s (readResponse rest s)
  | .unstable _ _ => afterFirstReset s (.refused .unstableRequest)

/-- The acts of a host that presents a program (R39) and takes each response before the next request
(R18, R94). -/
def programActs (words : List RequestWord) : List HostAct :=
  words.flatMap fun w => [.request w, .take]

end Sys2Proof.Machine
end

