-- ==== Sys2Proof/Machine/Step.lean ====
section
/-! DEFINITION. One step of the machine: the host's next act. -/

namespace Sys2Proof.Machine

/-- One step: the host's next act, or waiting where it has none. -/
def step (s : State) : Host.Outcome State Fault Refusal :=
  match s.script with
  | [] => afterFirstReset s (idle s)
  | act :: rest => perform act rest s

/-- `s` with a request at the head of what the host does, any response presented having been taken, so
that the next step accepts that request (log 2). -/
def State.withFetchWord (s : State) (nbits w : Nat) : State :=
  { deliver s with script := .request (tableRequest s.cfg.xlen nbits w) :: s.script }

end Sys2Proof.Machine
end

