-- ==== Sys2Proof/Machine/Assembler.lean ====
section
/-! DEFINITION. The textual form of a request and of a result, and the assembler
(spec/30_encoding.md R37). -/

namespace Sys2Proof.Machine

/-- A number that has an XLEN-bit two's complement pattern (R2, R37). -/
abbrev Representable (xlen : Nat) (n : Int) : Prop := -(2 ^ (xlen - 1)) ≤ n ∧ n ≤ 2 ^ (xlen - 1) - 1

/-- `encode(V, N)` as an instruction; refused, never reduced modulo 2^XLEN, where V or N has no
pattern (R37). -/
def assemble (c : Config) (v n : Int) : Option Instr :=
  if Representable c.xlen v ∧ Representable c.xlen n then
    some (.encode c.xlen (BitVec.ofInt c.xlen v) (BitVec.ofInt c.xlen n))
  else none

/-- The value of a character as a hexadecimal digit. -/
def hexDigit (ch : Char) : Option Nat :=
  if '0' ≤ ch ∧ ch ≤ '9' then some (ch.toNat - '0'.toNat)
  else if 'a' ≤ ch ∧ ch ≤ 'f' then some (ch.toNat - 'a'.toNat + 10)
  else if 'A' ≤ ch ∧ ch ≤ 'F' then some (ch.toNat - 'A'.toNat + 10)
  else none

/-- The value of a run of digits in a base of at most 16, read from the left onto `acc`. -/
def digits (base acc : Nat) : List Char → Option Nat
  | [] => some acc
  | ch :: cs =>
    match hexDigit ch with
    | some d => if d < base then digits base (acc * base + d) cs else none
    | none => none

/-- A run of at least one digit. -/
def someDigits (base : Nat) : List Char → Option Nat
  | [] => none
  | ch :: cs => digits base 0 (ch :: cs)

/-- A number as R37 writes it: decimal with an optional leading `-`, or hexadecimal after `0x`. -/
def number : List Char → Option Int
  | '0' :: 'x' :: cs => (someDigits 16 cs).map Int.ofNat
  | '-' :: cs => (someDigits 10 cs).map fun n => -(Int.ofNat n)
  | cs => (someDigits 10 cs).map Int.ofNat

/-- The text up to the first `stop` and the text after it. -/
def splitAtChar (stop : Char) : List Char → Option (List Char × List Char)
  | [] => none
  | ch :: cs => if ch = stop then some ([], cs) else (splitAtChar stop cs).map fun p => (ch :: p.1, p.2)

/-- The text without the spaces it begins with. -/
def skipSpaces : List Char → List Char
  | ' ' :: cs => skipSpaces cs
  | cs => cs

/-- The numbers of a text `encode(V, N)`; spaces may stand after the comma (log 13). -/
def requestNumbers : List Char → Option (Int × Int)
  | 'e' :: 'n' :: 'c' :: 'o' :: 'd' :: 'e' :: '(' :: cs =>
    match splitAtChar ',' cs with
    | none => none
    | some (v, rest) =>
      match splitAtChar ')' (skipSpaces rest) with
      | some (n, []) =>
        match number v, number n with
        | some v, some n => some (v, n)
        | _, _ => none
      | _ => none
  | _ => none

/-- The assembler on text. -/
def assembleText (c : Config) (text : String) : Option Instr :=
  match requestNumbers text.toList with
  | some (v, n) => assemble c v n
  | none => none

/-- The character of a hexadecimal digit. -/
def hexChar (n : Nat) : Char :=
  if n < 10 then Char.ofNat ('0'.toNat + n) else Char.ofNat ('A'.toNat + (n - 10))

/-- A byte as R37 writes it in a byte sequence. -/
def byteText (b : Byte) : List Char := ['0', 'x', hexChar (b.toNat / 16), hexChar (b.toNat % 16)]

/-- The elements of a byte sequence, separated by a comma and a space. -/
def bytesTextInner : List Byte → List Char
  | [] => []
  | [b] => byteText b
  | b :: bs => byteText b ++ [',', ' '] ++ bytesTextInner bs

/-- A byte sequence, index 0 first (R37). -/
def bytesText (bs : List Byte) : List Char := ['['] ++ bytesTextInner bs ++ [']']

end Sys2Proof.Machine
end

