-- ==== Sys2Proof/Machine/Instances.lean ====
section
/-! DEFINITION. Several instances of the block side by side (spec/60_exceptions.md R88 (b)). -/

namespace Sys2Proof.Machine

/-- Instance `k` of a list of instances takes a step; the others share nothing with it. -/
def stepInstance (k : Nat) (blocks : List State) : Host.Outcome (List State) Fault Refusal :=
  match blocks[k]? with
  | none => .next blocks
  | some s =>
    match step s with
    | .next t => .next (blocks.set k t)
    | .fault f => .fault f
    | .refused r => .refused r

end Sys2Proof.Machine
end

