-- ==== Sys2Proof/Machine/Ports.lean ====
section
/-! DEFINITION. The output ports as functions of the state (spec/10_state.md R10, R18;
spec/20_memory.md R22; spec/40_encode.md R47). -/

namespace Sys2Proof.Machine

/-- `ready = (FAULT = 0)` (R10). -/
def ready (s : State) : Bool := !s.fault

/-- `valid = (OLEN != 0)` (R10). -/
def valid (s : State) : Bool := s.olen != 0

/-- The output ports of R18. A value the spec leaves meaningless is absent, not a number. -/
structure Ports where
  reqReady : Bool
  rspValid : Bool
  /-- Absent while `rsp_valid` = 0 (U6). -/
  rspOk    : Option Bool
  /-- Absent while `rsp_valid` = 0 (U6). -/
  rspCause : Option (BitVec 3)
  rspLen   : Nat
  /-- Lane i is bits 8i+7..8i of `rsp_data` (R22); absent where OBUF[i] is unspecified (R9, U1). -/
  rspData  : List (Option Byte)
  fault    : Bool
  cause    : BitVec 3
  deriving DecidableEq, Repr

/-- `rsp_ok` of a response (R47). -/
def responseOk : Response → Bool
  | .ok _ => true
  | .fault _ => false

/-- `rsp_cause` of a response: 0 with OK, the code with FAULT (R47). -/
def responseCause : Response → BitVec 3
  | .ok _ => 0
  | .fault c => causeCode c

/-- Lane i of `rsp_data`. -/
def dataLane (s : State) (i : Nat) : Option Byte := (readByte s i).toOption

/-- The output ports in a state. -/
def ports (s : State) : Ports where
  reqReady := !s.fault && s.rsp.isNone
  rspValid := s.rsp.isSome
  rspOk    := s.rsp.map responseOk
  rspCause := s.rsp.map responseCause
  rspLen   := s.olen
  rspData  := (List.range s.cfg.nmax).map (dataLane s)
  fault    := s.fault
  cause    := causeCode s.cause

/-- Bit k of `rsp_data`, where it is specified (R22). -/
def dataBit (s : State) (k : Nat) : Option Bool := (dataLane s (k / 8)).map (·.getLsbD (k % 8))

/-- The input port `req_valid`: the host's next act is a request (R18). -/
def reqValid (s : State) : Bool :=
  match s.script with
  | .request _ :: _ => true
  | _ => false

end Sys2Proof.Machine
end

