-- ==== Sys2Proof/Safety.lean ====
section
/-! DEFINITION. What counts as a legal state of the block and as the end of a run, in the terms the
statements use. -/

namespace Sys2Proof.Machine

/-- What holds of every state the block can be in after reset. -/
structure State.Inv (s : State) : Prop where
  /-- Reset has been applied (R92). -/
  wasReset : s.wasReset = true
  /-- The build is a legal one (R2, R3). -/
  legal : s.cfg.Legal
  /-- CAUSE = 0 if and only if FAULT = 0 (R7). -/
  causeIff : s.cause = .none ↔ s.fault = false
  /-- FAULT = 1 implies OLEN = 0 (R10). -/
  withdrawn : s.fault = true → s.olen = 0
  /-- OLEN is in 0..NMAX (R8). -/
  olenLe : s.olen ≤ s.cfg.nmax
  /-- The defined bytes are exactly those at 0..OLEN-1, in canonical form (R9, R27). -/
  domain : s.obuf.map Prod.fst = List.range s.olen
  /-- An OK response presented shows the bytes of OBUF, at least one (R47, R63). -/
  okShown : ∀ bytes, s.rsp = some (.ok bytes) →
    s.fault = false ∧ bytes = s.obuf.map Prod.snd ∧ bytes ≠ []
  /-- A FAULT response presented shows CAUSE (R47, R77). -/
  faultShown : ∀ c, s.rsp = some (.fault c) → s.fault = true ∧ s.cause = c

/-- Every response of a run so far, delivered or presented, in acceptance order (R47). -/
def State.responses (s : State) : List Response := s.delivered ++ s.rsp.toList

/-- All responses of the list are OK. -/
def AllOk (rs : List Response) : Prop := ∀ r ∈ rs, ∃ bytes, r = .ok bytes

/-- The responses since reset agree with FAULT and CAUSE (R81, R98): all OK while FAULT = 0; with
FAULT = 1, OKs and then the one FAULT, which CAUSE names. -/
def State.HistoryAgrees (s : State) : Prop :=
  (s.fault = false → AllOk s.responses) ∧
  (s.fault = true → ∃ earlier, AllOk earlier ∧ s.responses = earlier ++ [.fault s.cause])

/-- The block accepts a request presented now (R46). -/
def State.Accepting (s : State) : Prop := s.wasReset = true ∧ s.fault = false ∧ s.rsp = none

/-- The run has ended well (R98): nothing is left to present, the last response is delivered, FAULT = 0. -/
def State.EndedWell (s : State) : Prop := s.script = [] ∧ s.rsp = none ∧ s.fault = false

/-- The architectural state of R5 is the same. -/
def SameArchitecture (s t : State) : Prop :=
  t.fault = s.fault ∧ t.cause = s.cause ∧ t.olen = s.olen ∧ t.obuf = s.obuf

/-- The state fault entry with cause `c` leaves (R77): FAULT = 1, CAUSE = c, OLEN = 0, no byte defined,
the response FAULT(c); everything else as before. -/
def FaultEntered (c : Cause) (s t : State) : Prop :=
  t = { s with fault := true, cause := c, olen := 0, obuf := [], rsp := some (.fault c) }

/-- The operands pass the four checks of R40, stated on integers (R35, last row). -/
def PassesChecks (nmax : Nat) (value obc : Int) : Prop :=
  0 ≤ value ∧ (reqbytes value.toNat : Int) ≤ obc ∧ obc ≤ nmax

/-- The response function of R41. -/
def response (nmax : Nat) (value obc : Int) : Response :=
  if obc ≤ 0 then .fault .zeroWidth
  else if value < 0 then .fault .negativeValue
  else if obc < reqbytes value.toNat then .fault .insufficientWidth
  else if nmax < obc then .fault .capacity
  else .ok ((List.range obc.toNat).map fun i =>
    BitVec.ofNat 8 (value.toNat / 2 ^ (8 * (obc.toNat - 1 - i)) % 256))

/-- The instruction enters the fault `c`, and does nothing else (R77). -/
def EntersFault (c : Cause) (i : Instr) (s : State) : Prop :=
  ∃ t, exec i s = .next t ∧ FaultEntered c s t

/-- The response of R41 to a request word's two operands (R33). -/
def requestResponse (c : Config) (word : RequestWord) : Response :=
  response c.nmax (sint (valueField c.xlen word)) (sint (obcField c.xlen word))

/-- A request word of a block of this configuration (R32). -/
def IsRequestWord (c : Config) (word : RequestWord) : Prop := word.width = requestBits c.xlen

/-- `k` steps of the machine, stopping at the first fault or refusal. -/
def runSteps (k : Nat) (s : State) : Host.Outcome State Fault Refusal := Sys2Proof.core.run k s

end Sys2Proof.Machine
end

