-- ==== Sys2Proof/Certificates/Slice0/Obligations.lean ====
section
/-! DEFINITION. The statements about the block, from the numbered rules of spec/. -/

open Sys2Proof Sys2Proof.Machine

/-! ### The request word (spec/30_encoding.md) -/

/-- R32 to R34: decoding the request word of a well-formed instruction gives the instruction back, with
every value of both operands. -/
def Obligations.DecodeOfEncode : Prop :=
  ∀ (c : Config) (i : Instr), WellFormed c i = true → decode c (encode i) = .ok i

/-- R32 to R34: every bit of a request word belongs to one of the two operands, so a word that decodes
is the word of the instruction it decodes to, which is well-formed. -/
def Obligations.EncodeOfDecode : Prop :=
  ∀ (c : Config) (r : RequestWord) (i : Instr),
    decode c r = .ok i → WellFormed c i = true ∧ encode i = r

/-- R33: VALUE = REQ[XLEN-1:0], OBC = REQ[2*XLEN-1:XLEN], read as signed; R34: every word of that length
decodes. -/
def Obligations.OperandsAreTheHalves : Prop :=
  ∀ (c : Config) (bits : BitVec (requestBits c.xlen)), ∃ v n : BitVec c.xlen,
    decode c ⟨requestBits c.xlen, bits⟩ = .ok (.encode c.xlen v n) ∧
    (∀ k < c.xlen, v.getLsbD k = bits.getLsbD k ∧ n.getLsbD k = bits.getLsbD (c.xlen + k)) ∧
    sint v = (if bits.getLsbD (c.xlen - 1) then (v.toNat : Int) - 2 ^ c.xlen else v.toNat) ∧
    sint n = (if bits.getLsbD (c.xlen + (c.xlen - 1)) then (n.toNat : Int) - 2 ^ c.xlen else n.toNat)

/-- R36: a string of bits of another length is no request. The decoder refuses it by name, and so does
a step of a block that would accept (the model's choice: log 11). -/
def Obligations.OtherLengthsRefused : Prop :=
  ∀ (s : State) (r : RequestWord), r.width ≠ requestBits s.cfg.xlen →
    decode s.cfg r = .error .wrongLength ∧
    ∀ rest, s.Accepting → s.script = .request r :: rest → step s = .refused (.noRequestWord .wrongLength)

/-- Request words written out in spec/95_test_vectors.md (V-S4, V-S8, the row of `encode(256, -5)`,
and a row of section 2.7 at XLEN = 8) decode to the requests they stand for. -/
def Obligations.SampleWordsDecode : Prop :=
  decode Config.reference ⟨128, 0x00000000000000020000000000000100#128⟩ =
      .ok (.encode 64 256#64 2#64) ∧
  decode Config.reference ⟨128, 0x0000000000000001FFFFFFFFFFFFFFFF#128⟩ =
      .ok (.encode 64 (-1) 1#64) ∧
  decode Config.reference ⟨128, 0xFFFFFFFFFFFFFFFB0000000000000100#128⟩ =
      .ok (.encode 64 256#64 (-5)) ∧
  decode ⟨8, 1⟩ ⟨16, 0x017F#16⟩ = .ok (.encode 8 127#8 1#8)

/-- R37: the assembler gives the word of exactly V and N, and refuses a number that has no XLEN-bit
pattern instead of reducing it. -/
def Obligations.AssemblerIsExact : Prop :=
  ∀ (c : Config) (V N : Int), c.Legal →
    (Representable c.xlen V ∧ Representable c.xlen N →
      ∃ v n : BitVec c.xlen, assemble c V N = some (.encode c.xlen v n) ∧ sint v = V ∧ sint n = N) ∧
    (¬ (Representable c.xlen V ∧ Representable c.xlen N) → assemble c V N = none)

/-- R37: examples of the textual form, in decimal, with a minus sign, in hexadecimal, out of range, and
of a byte sequence. -/
def Obligations.TextualFormSamples : Prop :=
  assembleText Config.reference "encode(256, 2)" = some (.encode 64 256#64 2#64) ∧
  assembleText Config.reference "encode(-1, 1)" = some (.encode 64 (-1) 1#64) ∧
  assembleText Config.reference "encode(0xABCD, 9)" = some (.encode 64 43981#64 9#64) ∧
  assembleText ⟨8, 1⟩ "encode(256, 1)" = none ∧
  bytesText [0x01#8, 0x00#8] = "[0x01, 0x00]".toList

/-! ### Stage 1 (spec/41_input_validator.md) -/

/-- R51: the two sign tests in terms of the operand bits. -/
def Obligations.SignTestsOnBits : Prop :=
  ∀ (w : Nat) (v n : BitVec w),
    (zeroWidthFail n = true ↔ sint n ≤ 0) ∧ (negativeFail v = true ↔ sint v < 0)

/-! ### Stage 2 (spec/42_leading_zero_counter.md) -/

/-- R52: `clz` counts the consecutive 0 bits from the top bit down; 0 when the top bit is 1, W when every
bit is 0, at least 1 after the validator. -/
def Obligations.LeadingZeroCount : Prop :=
  ∀ (w : Nat) (v : BitVec w),
    clz v ≤ w ∧
    (∀ k, w - clz v ≤ k → k < w → v.getLsbD k = false) ∧
    (clz v < w → v.getLsbD (w - 1 - clz v) = true) ∧
    (v.getLsbD (w - 1) = true → clz v = 0) ∧
    ((∀ k < w, v.getLsbD k = false) → clz v = w) ∧
    (0 < w → 0 ≤ sint v → 1 ≤ clz v)

/-- R53: BITLEN = XLEN - LZ is the position of the highest set bit of the value, 0 for 0. -/
def Obligations.BitLengthOfValue : Prop :=
  ∀ (w : Nat) (v : BitVec w), 0 ≤ sint v →
    bitLength v = bitlen (sint v).toNat ∧ bitLength v ≤ w - 1 ∧
    (sint v = 0 → bitLength v = 0) ∧
    (0 < sint v → 1 ≤ bitLength v ∧ (2 : Int) ^ (bitLength v - 1) ≤ sint v ∧ sint v < 2 ^ bitLength v)

/-- R54: reqbytes(n) = max(1, ceil(bitlen(n)/8)), the least k ≥ 1 with n < 256^k, and it is what the
stage computes for a non-negative operand. -/
def Obligations.RequiredBytesIsLeast : Prop :=
  (∀ n : Nat, reqbytes n = max 1 ⌈(bitlen n : ℚ) / 8⌉₊) ∧
  (∀ n k : Nat, 1 ≤ k → (reqbytes n ≤ k ↔ n < 256 ^ k)) ∧
  (∀ (w : Nat) (v : BitVec w), 0 ≤ sint v → requiredBytes v = reqbytes (sint v).toNat)

/-- R55: the source's formula ceil(log2(max(value, 1) + 1) / 8), over the exact reals, is reqbytes(value). -/
def Obligations.RequiredBytesIsTheFormula : Prop :=
  ∀ n : Nat, (reqbytes n : ℤ) = ⌈Real.logb 2 ((max n 1 : Nat) + 1) / 8⌉

/-- R56: 1 ≤ REQB ≤ XLEN/8; REQB = max(1, XLEN/8 - (LZ >> 3)); the largest value has REQB = XLEN/8. -/
def Obligations.RequiredBytesByLanes : Prop :=
  ∀ (w : Nat) (v : BitVec w), w % 8 = 0 → 8 ≤ w → 0 ≤ sint v →
    1 ≤ requiredBytes v ∧ requiredBytes v ≤ w / 8 ∧
    requiredBytes v = max 1 (w / 8 - (clz v >>> 3)) ∧
    (sint v = 2 ^ (w - 1) - 1 → requiredBytes v = w / 8)

/-! ### Stage 3 (spec/43_byte_width_checker.md) -/

/-- R62: after the checks 0 ≤ PAD ≤ NMAX - 1. -/
def Obligations.PaddingRange : Prop :=
  ∀ (w nmax : Nat) (v n : BitVec w), failedCheck nmax v n = none →
    0 ≤ padding v n ∧ padding v n ≤ (nmax : Int) - 1

/-- R61: every non-negative value has a byte count for which no check fails, and for a byte count in
1..NMAX the values that succeed are those below 256^obc. -/
def Obligations.EveryValueHasAnEncoding : Prop :=
  ∀ (c : Config) (v : BitVec c.xlen), c.Legal → 0 ≤ sint v →
    (∃ n : BitVec c.xlen, failedCheck c.nmax v n = none) ∧
    (∀ n : BitVec c.xlen, (reqbytes (sint v).toNat : Int) ≤ sint n → sint n ≤ c.nmax →
      failedCheck c.nmax v n = none) ∧
    (∀ n : BitVec c.xlen, 1 ≤ sint n → sint n ≤ c.nmax →
      (failedCheck c.nmax v n = none ↔ sint v < 256 ^ (sint n).toNat))

/-! ### Stage 4 (spec/44_byte_packer.md) -/

/-- R67: the byte formula is the selection of a byte lane of the operand, or zero where there is no
such lane. -/
def Obligations.BitSliceForm : Prop :=
  ∀ (w : Nat) (v : BitVec w) (obc i : Nat), w % 8 = 0 → 0 ≤ sint v → i < obc →
    resultByte (sint v).toNat obc i = byteLane v (obc - 1 - i)

/-- R65: the result is PAD zero bytes and then the REQB-byte big-endian representation of the value,
whose first byte is non-zero when the value is at least 1; all bytes are zero when it is 0. -/
def Obligations.PaddingThenWindow : Prop :=
  ∀ (s t : State) (v n : BitVec s.cfg.xlen) (bytes : List Byte),
    exec (.encode s.cfg.xlen v n) s = .next t → t.rsp = some (.ok bytes) →
    ∃ window : List Byte,
      bytes = List.replicate (padding v n).toNat 0 ++ window ∧
      window.length = requiredBytes v ∧
      (os2ip window : Int) = sint v ∧
      (1 ≤ sint v → ∀ b, window.head? = some b → b ≠ 0) ∧
      (sint v = 0 → ∀ b ∈ bytes, b = 0)

/-- R68: the round-trip law. Reading the result of a successful ENCODE as a big-endian unsigned number
of outputByteCount bytes gives the value, and these are the bytes that stand in OBUF. -/
def Obligations.RoundTripLaw : Prop :=
  ∀ (s t : State) (v n : BitVec s.cfg.xlen) (bytes : List Byte),
    exec (.encode s.cfg.xlen v n) s = .next t → t.rsp = some (.ok bytes) →
    (os2ip bytes : Int) = sint v ∧ (bytes.length : Int) = sint n ∧
    ∀ (i : Nat) (h : i < bytes.length), readByte t i = .ok bytes[i]

/-- R69: for a fixed byte count two values with the same bytes are equal, and the encodings of a value
of different lengths differ only in the number of leading zero bytes. -/
def Obligations.CanonicalForm : Prop :=
  (∀ (s t u : State) (v₁ v₂ n : BitVec s.cfg.xlen) (bytes : List Byte),
    exec (.encode s.cfg.xlen v₁ n) s = .next t → t.rsp = some (.ok bytes) →
    exec (.encode s.cfg.xlen v₂ n) s = .next u → u.rsp = some (.ok bytes) → v₁ = v₂) ∧
  (∀ (s t u : State) (v n m : BitVec s.cfg.xlen) (short long : List Byte),
    exec (.encode s.cfg.xlen v n) s = .next t → t.rsp = some (.ok short) →
    exec (.encode s.cfg.xlen v m) s = .next u → u.rsp = some (.ok long) → sint n ≤ sint m →
    long = List.replicate (long.length - short.length) 0 ++ short)

/-! ### ENCODE (spec/40_encode.md, spec/60_exceptions.md) -/

/-- R63, R64: with FAULT = 0 and operands that pass the checks, ENCODE completes; OLEN = obc, OBUF[i] is
(value >> (8 * (obc - 1 - i))) mod 256 at every index i < obc, the response carries these bytes, and no
flag is written. -/
def Obligations.EncodeDeliversTheBytes : Prop :=
  ∀ (s : State) (v n : BitVec s.cfg.xlen), s.fault = false →
    0 ≤ sint v → (reqbytes (sint v).toNat : Int) ≤ sint n → sint n ≤ s.cfg.nmax →
    ∃ t bytes, exec (.encode s.cfg.xlen v n) s = .next t ∧
      t.rsp = some (.ok bytes) ∧ (bytes.length : Int) = sint n ∧ (t.olen : Int) = sint n ∧
      t.fault = s.fault ∧ t.cause = s.cause ∧
      ∀ (i : Nat) (h : i < bytes.length),
        readByte t i = .ok bytes[i] ∧
        ((bytes[i].toNat : Nat) : Int) = sint v / 2 ^ (8 * (bytes.length - 1 - i)) % 256

/-- R40, R9, R70: what an ENCODE that completes leaves unchanged. FAULT and CAUSE are unchanged when it
answers OK; the build, what the host does next, what was delivered and that reset was applied are
unchanged always; and no byte outside those stored has a value, so that no earlier byte is left. -/
def Obligations.EncodeFrame : Prop :=
  ∀ (s t : State) (v n : BitVec s.cfg.xlen), exec (.encode s.cfg.xlen v n) s = .next t →
    t.cfg = s.cfg ∧ t.script = s.script ∧ t.delivered = s.delivered ∧ t.wasReset = s.wasReset ∧
    (∀ bytes, t.rsp = some (.ok bytes) →
      t.fault = s.fault ∧ t.cause = s.cause ∧
      ∀ i b, bytes.length ≤ i → readByte t i ≠ .ok b) ∧
    (∀ c, t.rsp = some (.fault c) → ∀ i b, readByte t i ≠ .ok b)

/-- R41: an accepted request is answered, and its response is the response function's. -/
def Obligations.ResponseFunction : Prop :=
  ∀ (s : State) (v n : BitVec s.cfg.xlen), s.fault = false →
    ∃ t, exec (.encode s.cfg.xlen v n) s = .next t ∧
      t.rsp = some (response s.cfg.nmax (sint v) (sint n))

/-- R48, R73: ENCODE raises ZERO_WIDTH exactly when obc ≤ 0, whatever VALUE holds. -/
def Obligations.ZeroWidthFault : Prop :=
  ∀ (s : State) (v n : BitVec s.cfg.xlen), s.fault = false →
    (EntersFault .zeroWidth (.encode s.cfg.xlen v n) s ↔ sint n ≤ 0)

/-- R49, R74: ENCODE raises NEGATIVE_VALUE exactly when obc > 0 and value < 0, that is when bit XLEN-1
of VALUE is set. -/
def Obligations.NegativeValueFault : Prop :=
  ∀ (s : State) (v n : BitVec s.cfg.xlen), s.fault = false →
    (EntersFault .negativeValue (.encode s.cfg.xlen v n) s ↔ 0 < sint n ∧ sint v < 0) ∧
    (sint v < 0 ↔ v.getLsbD (s.cfg.xlen - 1) = true)

/-- R59, R75: ENCODE raises INSUFFICIENT_WIDTH exactly when checks 1 and 2 pass and obc < reqbytes(value),
that is when value ≥ 256^obc. -/
def Obligations.InsufficientWidthFault : Prop :=
  ∀ (s : State) (v n : BitVec s.cfg.xlen), s.fault = false →
    (EntersFault .insufficientWidth (.encode s.cfg.xlen v n) s ↔
      0 < sint n ∧ 0 ≤ sint v ∧ sint n < reqbytes (sint v).toNat) ∧
    (EntersFault .insufficientWidth (.encode s.cfg.xlen v n) s ↔
      0 < sint n ∧ 0 ≤ sint v ∧ 256 ^ (sint n).toNat ≤ sint v)

/-- R60: ENCODE raises CAPACITY exactly when checks 1, 2 and 3 pass and obc > NMAX; R76: never when
NMAX = 2^(XLEN-1) - 1. -/
def Obligations.CapacityFault : Prop :=
  ∀ (s : State) (v n : BitVec s.cfg.xlen), s.fault = false →
    (EntersFault .capacity (.encode s.cfg.xlen v n) s ↔
      0 < sint n ∧ 0 ≤ sint v ∧ (reqbytes (sint v).toNat : Int) ≤ sint n ∧ (s.cfg.nmax : Int) < sint n) ∧
    (0 < s.cfg.xlen → s.cfg.nmax = 2 ^ (s.cfg.xlen - 1) - 1 →
      ¬ EntersFault .capacity (.encode s.cfg.xlen v n) s)

/-- R72: the codes of the causes are 0 to 4, one each. -/
def Obligations.CauseCodes : Prop :=
  causeCode .none = 0 ∧ causeCode .zeroWidth = 1 ∧ causeCode .negativeValue = 2 ∧
  causeCode .insufficientWidth = 3 ∧ causeCode .capacity = 4 ∧
  ∀ c d, causeCode c = causeCode d → c = d

/-- R77: fault entry. When a check fails with cause c, the whole effect of the step is FAULT = 1, CAUSE = c,
OLEN = 0, the earlier bytes no longer defined, and the response FAULT(c), shown at the ports; and from
FAULT = 0 nothing else sets FAULT. -/
def Obligations.FaultEntryIsTheWholeEffect : Prop :=
  ∀ (s : State) (v n : BitVec s.cfg.xlen), s.fault = false →
    (∀ c, failedCheck s.cfg.nmax v n = some c →
      ∃ t, exec (.encode s.cfg.xlen v n) s = .next t ∧
        c ≠ .none ∧ t.fault = true ∧ t.cause = c ∧ t.olen = 0 ∧
        t.rsp = some (.fault c) ∧ (∀ i b, readByte t i ≠ .ok b) ∧
        (ports t).fault = true ∧ (ports t).cause = causeCode c ∧ (ports t).rspValid = true ∧
        (ports t).rspOk = some false ∧ (ports t).rspCause = some (causeCode c) ∧
        t.cfg = s.cfg ∧ t.script = s.script ∧ t.delivered = s.delivered ∧ t.wasReset = s.wasReset) ∧
    (∀ t, exec (.encode s.cfg.xlen v n) s = .next t → t.fault = true →
      ∃ c, failedCheck s.cfg.nmax v n = some c)

/-- R78: the order of the checks decides the cause; checks 3 and 4 cannot both fail; at most one fault
per step, and after it none until reset. -/
def Obligations.CheckOrderDecides : Prop :=
  ∀ (s : State) (v n : BitVec s.cfg.xlen), s.cfg.Legal → s.fault = false →
    (sint n ≤ 0 → sint v < 0 → EntersFault .zeroWidth (.encode s.cfg.xlen v n) s) ∧
    (sint n ≤ 0 → 0 ≤ sint v → sint n < reqbytes (sint v).toNat →
      EntersFault .zeroWidth (.encode s.cfg.xlen v n) s) ∧
    (0 < sint n → sint v < 0 → EntersFault .negativeValue (.encode s.cfg.xlen v n) s) ∧
    (0 < sint n → 0 ≤ sint v → sint n < reqbytes (sint v).toNat →
      EntersFault .insufficientWidth (.encode s.cfg.xlen v n) s) ∧
    (0 < sint n → 0 ≤ sint v → (reqbytes (sint v).toNat : Int) ≤ sint n → (s.cfg.nmax : Int) < sint n →
      EntersFault .capacity (.encode s.cfg.xlen v n) s) ∧
    (0 ≤ sint v → ¬ (sint n < reqbytes (sint v).toNat ∧ (s.cfg.nmax : Int) < sint n)) ∧
    (∀ c d, EntersFault c (.encode s.cfg.xlen v n) s → EntersFault d (.encode s.cfg.xlen v n) s → c = d) ∧
    (∀ c t (v' n' : BitVec t.cfg.xlen), FaultEntered c s t →
      exec (.encode t.cfg.xlen v' n') t = .fault .stuck)

/-- R35: the five conditions on (value, obc) exclude each other and cover every pair. -/
def Obligations.OutcomesPartition : Prop :=
  ∀ (nmax : Nat) (v n : Int),
    ∃! k : Fin 5, ![n ≤ 0,
      0 < n ∧ v < 0,
      0 < n ∧ 0 ≤ v ∧ n < reqbytes v.toNat,
      0 ≤ v ∧ (reqbytes v.toNat : Int) ≤ n ∧ (nmax : Int) < n,
      0 ≤ v ∧ (reqbytes v.toNat : Int) ≤ n ∧ n ≤ nmax] k

/-- R28: no write of OBUF is ever attempted at an index not below NMAX. ENCODE stops only because
FAULT = 1, and every byte it leaves defined is below NMAX. -/
def Obligations.NoStoreOutsideTheBuffer : Prop :=
  ∀ (s : State) (v n : BitVec s.cfg.xlen),
    (∀ f, exec (.encode s.cfg.xlen v n) s = .fault f → f = .stuck ∧ s.fault = true) ∧
    (∀ t, exec (.encode s.cfg.xlen v n) s = .next t → ∀ cell ∈ t.obuf, cell.1 < s.cfg.nmax)

/-- An instruction whose operands have another width than the block's is refused by name (R2; the
model's choice: log 11). -/
def Obligations.OtherWidthRefused : Prop :=
  ∀ (s : State) (w : Nat) (v n : BitVec w), w ≠ s.cfg.xlen →
    exec (.encode w v n) s = .refused .wrongOperandWidth

/-- R11: the response and the state after it depend on the two operands and on XLEN and NMAX only, not on
OLEN, OBUF, an earlier request or anything else. -/
def Obligations.ResponseDependsOnOperandsOnly : Prop :=
  ∀ (s₁ s₂ : State) (i : Instr), s₁.cfg = s₂.cfg → WellFormed s₁.cfg i = true →
    s₁.fault = false → s₂.fault = false → s₁.cause = .none → s₂.cause = .none →
    ∃ t₁ t₂, exec i s₁ = .next t₁ ∧ exec i s₂ = .next t₂ ∧ t₁.rsp = t₂.rsp ∧
      SameArchitecture t₁ t₂

/-- R44: a request that answers OK, delivered and made again, answers the same OK and leaves OLEN and
OBUF as the first left them. -/
def Obligations.EncodeIsIdempotent : Prop :=
  ∀ (s t : State) (i : Instr) (bytes : List Byte), exec i s = .next t →
    t.rsp = some (.ok bytes) →
    ∃ u, exec i (deliver t) = .next u ∧ u.rsp = some (.ok bytes) ∧ SameArchitecture t u

/-! ### Acceptance, delivery, reset, runs (spec/40_encode.md, spec/70_reset_and_hazards.md) -/

/-- A step runs the decoded instruction: when reset has been applied, no response waits and the host
presents a word that decodes to `i`, the step is `exec` of `i` with that act done. -/
def Obligations.StepRunsTheDecodedRequest : Prop :=
  ∀ (s : State) (word : RequestWord) (rest : List HostAct) (i : Instr),
    s.wasReset = true → s.rsp = none → s.script = .request word :: rest → decode s.cfg word = .ok i →
    step s = exec i { s with script := rest }

/-- The opcode table's bits, placed with `withFetchWord`, are what the next step runs. Both parts are the
model's choice and no rule of the spec: `withFetchWord` puts the request at the head of the host's acts
and takes a response that waits (log 2, DESIGN CHOICE), and `decodeTableWord` decodes in the reference
configuration (log 1, DESIGN CHOICE). -/
def Obligations.TableWordRunsNext : Prop :=
  ∀ (s : State) (nbits w : Nat) (i : Instr), s.wasReset = true →
    decode s.cfg (tableRequest s.cfg.xlen nbits w) = .ok i →
    step (s.withFetchWord nbits w) = exec i (deliver s) ∧
    (s.cfg = Config.reference → decodeTableWord nbits w = some i)

/-- R46: acceptance. `req_ready` is 1 exactly when FAULT = 0 and no request is in flight; with FAULT = 1 no
request is accepted; otherwise every request word is accepted and executed, whatever its operands. -/
def Obligations.AcceptanceRule : Prop :=
  ∀ s : State, s.wasReset = true →
    ((ports s).reqReady = true ↔ s.fault = false ∧ s.rsp = none) ∧
    (∀ word rest, s.script = .request word :: rest → s.fault = true → step s = .fault .stuck) ∧
    (∀ word rest, s.script = .request word :: rest → s.fault = false → s.rsp = none →
      IsRequestWord s.cfg word →
      ∃ i t, decode s.cfg word = .ok i ∧ exec i { s with script := rest } = .next t ∧ step s = .next t)

/-- R47: every accepted request produces exactly one response, of one of two kinds, shown at the ports. -/
def Obligations.AcceptedRequestIsAnswered : Prop :=
  ∀ (s : State) (word : RequestWord) (rest : List HostAct), s.Accepting →
    s.script = .request word :: rest → IsRequestWord s.cfg word →
    ∃ t r, step s = .next t ∧ t.responses = s.responses ++ [r] ∧ (ports t).rspValid = true ∧
      ((∃ bytes, r = .ok bytes ∧ (bytes.length : Int) = sint (obcField s.cfg.xlen word) ∧
          (ports t).rspOk = some true ∧ (ports t).rspCause = some 0 ∧ (ports t).rspLen = bytes.length ∧
          ∀ (i : Nat) (h : i < bytes.length), (ports t).rspData[i]? = some (some bytes[i])) ∨
       (∃ c, r = .fault c ∧ c ≠ .none ∧ (ports t).rspOk = some false ∧
          (ports t).rspCause = some (causeCode c) ∧ (ports t).rspLen = 0))

/-- R40 as one atomic step of acceptance, computation and delivery: a request presented to a block that
accepts, and its response taken, give in two steps of the model the response of R41 delivered and
nothing else in the channel (the two steps are the model's choice: log 4). -/
def Obligations.RequestThenTakeIsOneAtomicStep : Prop :=
  ∀ (s : State) (word : RequestWord) (rest : List HostAct), s.Accepting →
    s.script = .request word :: .take :: rest → IsRequestWord s.cfg word →
    ∃ t, runSteps 2 s = .next t ∧ t.rsp = none ∧ t.script = rest ∧ t.cfg = s.cfg ∧
      t.delivered = s.delivered ++ [requestResponse s.cfg word] ∧
      (∀ c, requestResponse s.cfg word = .fault c → t.fault = true ∧ t.cause = c ∧ t.olen = 0) ∧
      (∀ bytes, requestResponse s.cfg word = .ok bytes →
        t.fault = false ∧ t.cause = s.cause ∧ t.olen = bytes.length ∧
        ∀ (i : Nat) (h : i < bytes.length), readByte t i = .ok bytes[i])

/-- R18, R94: while a response is not delivered the block waits: a request presented is not accepted and
nothing changes. -/
def Obligations.NextRequestWaitsForDelivery : Prop :=
  ∀ (s : State) (word : RequestWord) (rest : List HostAct) (r : Response),
    s.wasReset = true → s.fault = false → s.rsp = some r → s.script = .request word :: rest →
    step s = .next s

/-- R25: taking a response changes no architectural state, it only re-opens acceptance; sampling a
response presented changes nothing. That a take changes nothing where no response is presented, which
the first clause covers too, is the model's and no rule of the spec (log 14, DEDUCED). -/
def Obligations.DeliveryChangesNoArchitecture : Prop :=
  (∀ (s : State) (rest : List HostAct), s.wasReset = true → s.script = .take :: rest →
    ∃ t, step s = .next t ∧ SameArchitecture s t ∧ t.rsp = none ∧ t.script = rest ∧
      t.delivered = s.delivered ++ s.rsp.toList ∧ (ports t).reqReady = !s.fault) ∧
  (∀ (s : State) (rest : List HostAct) (r : Response), s.wasReset = true → s.rsp = some r →
    s.script = .readResponse :: rest → step s = .next { s with script := rest })

/-- The block waits, unchanged, while the host does nothing (R87; log 8). -/
def Obligations.IdleBlockWaits : Prop :=
  ∀ s : State, s.wasReset = true → s.fault = false → s.script = [] → step s = .next s

/-- R90: the state after reset, whatever was before; R92: XLEN and NMAX are not changed by it. -/
def Obligations.ResetLeaves : Prop :=
  (∀ (s : State) (rest : List HostAct), s.script = .reset :: rest →
    ∃ t, step s = .next t ∧ t.fault = false ∧ t.cause = .none ∧ t.olen = 0 ∧
      (∀ i b, readByte t i ≠ .ok b) ∧ t.rsp = none ∧ ready t = true ∧ valid t = false ∧
      (ports t).reqReady = true ∧ (ports t).rspValid = false ∧ t.cfg = s.cfg ∧ t.script = rest) ∧
  (∀ s₁ s₂ : State, s₁.cfg = s₂.cfg → s₁.script = s₂.script → s₁.script.head? = some .reset →
    step s₁ = step s₂)

/-- R91: reset while a request is in flight discards it: no response is delivered for it, no fault is
recorded, and the state is that after reset. -/
def Obligations.ResetDiscardsTheRequestInFlight : Prop :=
  ∀ (s : State) (word : RequestWord) (rest : List HostAct), s.Accepting →
    s.script = .request word :: .reset :: rest → IsRequestWord s.cfg word →
    runSteps 2 s = .next { State.reset with cfg := s.cfg, script := rest }

/-- R92: before the first reset no rule applies: every act but reset is refused. -/
def Obligations.NothingBeforeTheFirstReset : Prop :=
  ∀ s : State, s.wasReset = false → s.script.head? ≠ some .reset →
    step s = .refused .beforeFirstReset

/-- R97: a host that breaks R93, or reads the response while there is none, is outside the spec: refused
by name. -/
def Obligations.HandshakeBreachRefused : Prop :=
  ∀ (s : State) (rest : List HostAct), s.wasReset = true →
    (∀ shown later, s.script = .unstable shown later :: rest → step s = .refused .unstableRequest) ∧
    (s.script = .readResponse :: rest → s.rsp = none → step s = .refused .responseNotValid)

/-- R80: the only way out of a fault is reset, which also discards CAUSE. -/
def Obligations.OnlyResetClearsFault : Prop :=
  ∀ s t : State, s.fault = true → step s = .next t → t.fault = false →
    s.script.head? = some .reset ∧ t.cause = .none

/-- R81: after a fault the block is stuck. It accepts nothing, and over any number of steps with no reset
FAULT, CAUSE, OLEN and OBUF do not change and no response is added. -/
def Obligations.FaultedBlockIsStuck : Prop :=
  (∀ s : State, s.fault = true → (ports s).reqReady = false) ∧
  (∀ (s : State) (v n : BitVec s.cfg.xlen), s.fault = true →
    exec (.encode s.cfg.xlen v n) s = .fault .stuck) ∧
  (∀ s : State, s.wasReset = true → s.fault = true → s.script = [] → step s = .fault .stuck) ∧
  (∀ (s : State) (word : RequestWord) (rest : List HostAct), s.wasReset = true → s.fault = true →
    s.script = .request word :: rest → step s = .fault .stuck) ∧
  (∀ (k : Nat) (s t : State), s.fault = true → .reset ∉ s.script → runSteps k s = .next t →
    t.fault = true ∧ SameArchitecture s t ∧ t.responses = s.responses)

/-- The reset state as the spec gives it (R90), of a legal build (R2, R3; the reference one, log 1). -/
def Obligations.ResetStateAsSpecified : Prop :=
  State.reset.fault = false ∧ State.reset.cause = .none ∧ State.reset.olen = 0 ∧
  State.reset.obuf = [] ∧ State.reset.rsp = none ∧ State.reset.cfg.Legal ∧
  State.reset.cfg.xlen = 64 ∧ State.reset.cfg.nmax = 16

/-- The invariant holds after reset. -/
def Obligations.ResetMeetsInvariant : Prop := State.reset.Inv

/-- R7, R8, R9, R10, R26: every step keeps the invariant: CAUSE = 0 if and only if FAULT = 0, FAULT = 1 only
with OLEN = 0, OLEN in 0..NMAX, the defined bytes exactly those below OLEN, and the response presented
in agreement with them. -/
def Obligations.StepKeepsInvariant : Prop :=
  ∀ s t : State, s.Inv → step s = .next t → t.Inv

/-- The memory of every state that meets the invariant is in canonical form, and every byte it lists is at
an index below OLEN and NMAX. -/
def Obligations.InvariantGivesCanonicalMemory : Prop :=
  ∀ s : State, s.Inv → Memory.wf s.obuf = true ∧
    (∀ i, (∃ b, readByte s i = .ok b) ↔ i < s.olen) ∧
    (∀ cell ∈ s.obuf, cell.1 < s.cfg.nmax)

/-- R81, R98: the responses since reset are all OK while FAULT = 0, and with FAULT = 1 they are OKs and then
the one FAULT whose code CAUSE holds; every step keeps this. -/
def Obligations.StepKeepsHistory : Prop :=
  State.reset.HistoryAgrees ∧ ∀ s t : State, s.HistoryAgrees → step s = .next t → t.HistoryAgrees

/-- R98: a list of requests that all succeed, each response taken, ends well, from any accepting block:
one OK per request, in order, FAULT = 0, CAUSE = 0, and OBUF holds the bytes of the last. -/
def Obligations.RunEndsWell : Prop :=
  ∀ (words : List RequestWord) (s : State), s.Accepting → s.cause = .none →
    (∀ word ∈ words, IsRequestWord s.cfg word ∧ ∃ bytes, requestResponse s.cfg word = .ok bytes) →
    s.script = programActs words →
    ∃ t, runSteps (2 * words.length) s = .next t ∧ t.EndedWell ∧ t.cause = .none ∧
      t.delivered = s.delivered ++ words.map (requestResponse s.cfg) ∧
      (words = [] → t = s) ∧
      (∀ last bytes, words.getLast? = some last → requestResponse s.cfg last = .ok bytes →
        t.olen = bytes.length ∧ ∀ (i : Nat) (h : i < bytes.length), readByte t i = .ok bytes[i])

/-- R98: a list of requests in which one faults: the run faults with its cause, the responses end with
that FAULT, OLEN = 0, and the block is stuck, so that no later request is accepted. -/
def Obligations.RunFaults : Prop :=
  ∀ (good later : List RequestWord) (bad : RequestWord) (c : Cause) (s : State),
    s.Accepting → s.cause = .none →
    (∀ word ∈ good, IsRequestWord s.cfg word ∧ ∃ bytes, requestResponse s.cfg word = .ok bytes) →
    IsRequestWord s.cfg bad → requestResponse s.cfg bad = .fault c →
    s.script = programActs (good ++ bad :: later) →
    ∃ t, runSteps (2 * good.length + 2) s = .next t ∧ t.fault = true ∧ t.cause = c ∧ t.olen = 0 ∧
      t.delivered = s.delivered ++ good.map (requestResponse s.cfg) ++ [.fault c] ∧
      step t = .fault .stuck

/-! ### Ports (spec/10_state.md, spec/20_memory.md) -/

/-- R22: OBUF[i] occupies bits 8i+7 down to 8i of `rsp_data`; the lanes at and above OLEN have no
specified value (R9). -/
def Obligations.ByteLanesOnThePort : Prop :=
  ∀ s : State, s.Inv →
    (ports s).rspData.length = s.cfg.nmax ∧ (ports s).rspLen = s.olen ∧
    (∀ i j, i < s.olen → j < 8 → ∃ b, readByte s i = .ok b ∧ (ports s).rspData[i]? = some (some b) ∧
      dataBit s (8 * i + j) = some (b.getLsbD j)) ∧
    (∀ k, 8 * s.olen ≤ k → dataBit s k = none)

/-- R10: `ready` is FAULT = 0, `valid` is OLEN ≠ 0, FAULT = 1 implies OLEN = 0, and so `valid` implies `ready`. -/
def Obligations.ValidImpliesReady : Prop :=
  ∀ s : State, s.Inv →
    (ready s = true ↔ s.fault = false) ∧ (valid s = true ↔ s.olen ≠ 0) ∧
    (s.fault = true → s.olen = 0) ∧ (valid s = true → ready s = true)

/-- R88 (b): a step of one instance leaves every other instance as it was. -/
def Obligations.InstancesShareNothing : Prop :=
  ∀ (k : Nat) (blocks after : List State), stepInstance k blocks = .next after →
    after.length = blocks.length ∧ (∀ j, j ≠ k → after[j]? = blocks[j]?) ∧
    (∀ s, blocks[k]? = some s → ∃ t, step s = .next t ∧ after[k]? = some t)

/-- `req_valid` is 1 exactly when the host's next act is a request, which is the model's choice (log 2,
DESIGN CHOICE); and a request is accepted only where `req_valid` and `req_ready` are both 1 (R18): one
presented while `req_ready` is 0 leaves the state as it is, or the block is stuck. -/
def Obligations.RequestPortIsTheNextAct : Prop :=
  ∀ s : State,
    (reqValid s = true ↔ ∃ word rest, s.script = .request word :: rest) ∧
    (s.wasReset = true → reqValid s = true → (ports s).reqReady = false →
      step s = .next s ∨ step s = .fault .stuck)
end

