-- ==== Sys2Proof/Laws/Bits.lean ====
section
/-! SUPPORT. The operands as integers, the leading-zero count and the required byte count: one lemma
that says what each function is. -/

namespace Sys2Proof.Machine

variable {w : Nat}

/-- The top bit of a vector is set exactly when its unsigned value is at least half the range. -/
theorem getLsbD_top (v : BitVec w) :
    v.getLsbD (w - 1) = decide (2 ^ (w - 1) ≤ v.toNat) := by
  have h := BitVec.msb_eq_decide v
  rwa [BitVec.msb_eq_getLsbD_last] at h

/-- `sint` is the library's two's complement value. -/
theorem sint_eq_toInt (v : BitVec w) : sint v = v.toInt := by
  rcases Nat.eq_zero_or_pos w with rfl | hw
  · simp [sint, BitVec.eq_nil v]
  · have hp : (2 : Nat) ^ w = 2 * 2 ^ (w - 1) := by
      rw [← pow_succ']; congr 1; omega
    unfold sint
    rw [getLsbD_top v, BitVec.toInt_eq_toNat_cond]
    by_cases h : 2 ^ (w - 1) ≤ v.toNat
    · have : ¬ 2 * v.toNat < 2 ^ w := by omega
      simp [h, this]
    · have : 2 * v.toNat < 2 ^ w := by omega
      simp [h, this]

/-- A vector whose integer value is not negative has its top bit clear and its unsigned value equal. -/
theorem sint_nonneg {v : BitVec w} (h : 0 ≤ sint v) :
    v.getLsbD (w - 1) = false ∧ sint v = v.toNat := by
  unfold sint at *
  by_cases ht : v.getLsbD (w - 1) = true
  · rw [if_pos ht] at h
    have := v.isLt
    have h2 : ((2 ^ w : Nat) : Int) = 2 ^ w := by push_cast; rfl
    omega
  · rw [if_neg ht]
    exact ⟨by simpa using ht, rfl⟩

theorem sint_toNat {v : BitVec w} (h : 0 ≤ sint v) : (sint v).toNat = v.toNat := by
  rw [(sint_nonneg h).2]; simp

/-- A value that is not negative is below half the range (R50). -/
theorem toNat_lt_half {v : BitVec w} (h : 0 ≤ sint v) : v.toNat < 2 ^ (w - 1) := by
  have := (sint_nonneg h).1
  rw [getLsbD_top v] at this
  simpa using this

theorem sint_neg_iff (v : BitVec w) : sint v < 0 ↔ v.getLsbD (w - 1) = true := by
  constructor
  · intro h
    by_contra hc
    have : sint v = v.toNat := by simp [sint, hc]
    omega
  · intro h
    by_contra hc
    rw [(sint_nonneg (not_lt.1 hc)).1] at h
    cases h

/-- The bits counted by `zerosBelow` are 0 and the next one, if any, is 1. -/
theorem zerosBelow_spec (v : BitVec w) (k : Nat) :
    zerosBelow v k ≤ k ∧ (∀ j, k - zerosBelow v k ≤ j → j < k → v.getLsbD j = false) ∧
      (zerosBelow v k < k → v.getLsbD (k - 1 - zerosBelow v k) = true) := by
  induction k with
  | zero => simp [zerosBelow]
  | succ k ih =>
    obtain ⟨h1, h2, h3⟩ := ih
    by_cases hb : v.getLsbD k = true
    · simp only [zerosBelow, hb, if_true]
      exact ⟨by omega, fun j hj hk => by omega, fun _ => by simpa using hb⟩
    · simp only [zerosBelow, hb]
      refine ⟨by simpa using h1, fun j hj hk => ?_, fun hlt => ?_⟩
      · by_cases hjk : j = k
        · subst hjk; simpa using hb
        · exact h2 j (by simp at hj; omega) (by omega)
      · have hlt' : zerosBelow v k < k := by simp at hlt; omega
        have := h3 hlt'
        rw [show k - 1 - zerosBelow v k = k + 1 - 1 - (zerosBelow v k + 1) by omega] at this
        simpa using this

/-- `bitlen` is the least number of bits that hold the number. -/
theorem lt_two_pow_iff_bitlen_le (n b : Nat) : n < 2 ^ b ↔ bitlen n ≤ b := by
  unfold bitlen
  by_cases h : n = 0
  · simp [h]
  · simp only [h, if_false]
    rw [← Nat.log2_lt h]
    omega

/-- The bit length of a vector is that of its unsigned value (R53). -/
theorem bitLength_eq (v : BitVec w) : bitLength v = bitlen v.toNat := by
  obtain ⟨h1, h2, h3⟩ := zerosBelow_spec v w
  apply le_antisymm
  · by_contra hc
    rw [not_le] at hc
    have hlt : v.toNat < 2 ^ (bitLength v - 1) :=
      (lt_two_pow_iff_bitlen_le _ _).2 (by omega)
    have hpos : zerosBelow v w < w := by unfold bitLength clz at hc; omega
    have ht := h3 hpos
    rw [show w - 1 - zerosBelow v w = bitLength v - 1 by unfold bitLength clz; omega] at ht
    rw [BitVec.getLsbD, Nat.testBit_lt_two_pow hlt] at ht
    cases ht
  · rw [← lt_two_pow_iff_bitlen_le]
    apply Nat.lt_pow_two_of_testBit
    intro j hj
    by_cases hjw : j < w
    · exact h2 j (by unfold bitLength clz at hj; exact hj) hjw
    · exact BitVec.getLsbD_of_ge v j (by omega)

/-- The required byte count of an operand is that of its unsigned value (R54). -/
theorem requiredBytes_eq (v : BitVec w) : requiredBytes v = reqbytes v.toNat := by
  simp [requiredBytes, reqbytes, bitLength_eq, Nat.shiftRight_eq_div_pow]

theorem one_le_reqbytes (n : Nat) : 1 ≤ reqbytes n := le_max_left _ _

/-- `reqbytes(n)` is the least k ≥ 1 with n < 256^k (R54). -/
theorem reqbytes_le_iff (n k : Nat) (hk : 1 ≤ k) : reqbytes n ≤ k ↔ n < 256 ^ k := by
  rw [show (256 : Nat) ^ k = 2 ^ (8 * k) by rw [pow_mul]; norm_num, lt_two_pow_iff_bitlen_le]
  unfold reqbytes
  omega

/-- A non-negative value needs at most XLEN/8 bytes (R56). -/
theorem reqbytes_le_width {v : BitVec w} (h8 : w % 8 = 0) (hw : 8 ≤ w) :
    reqbytes v.toNat ≤ w / 8 := by
  rw [reqbytes_le_iff _ _ (by omega)]
  have := v.isLt
  rwa [show (256 : Nat) ^ (w / 8) = 2 ^ w by
    rw [show (256 : Nat) = 2 ^ 8 by norm_num, ← pow_mul]; congr 1; omega]

end Sys2Proof.Machine
end

