-- ==== Sys2Proof/Laws/State.lean ====
section
/-! SUPPORT. One lemma per field and per named update of the state, so that no later proof unfolds an
update. -/

namespace Sys2Proof.Machine

variable (s : State) (r : Response) (c : Cause) (nbits w : Nat)

@[simp] theorem withdraw_cfg : (withdraw s).cfg = s.cfg := rfl
@[simp] theorem withdraw_fault : (withdraw s).fault = s.fault := rfl
@[simp] theorem withdraw_cause : (withdraw s).cause = s.cause := rfl
@[simp] theorem withdraw_olen : (withdraw s).olen = 0 := rfl
@[simp] theorem withdraw_obuf : (withdraw s).obuf = [] := rfl
@[simp] theorem withdraw_rsp : (withdraw s).rsp = s.rsp := rfl
@[simp] theorem withdraw_script : (withdraw s).script = s.script := rfl
@[simp] theorem withdraw_delivered : (withdraw s).delivered = s.delivered := rfl
@[simp] theorem withdraw_wasReset : (withdraw s).wasReset = s.wasReset := rfl

@[simp] theorem respond_cfg : (respond r s).cfg = s.cfg := rfl
@[simp] theorem respond_fault : (respond r s).fault = s.fault := rfl
@[simp] theorem respond_cause : (respond r s).cause = s.cause := rfl
@[simp] theorem respond_olen : (respond r s).olen = s.olen := rfl
@[simp] theorem respond_obuf : (respond r s).obuf = s.obuf := rfl
@[simp] theorem respond_rsp : (respond r s).rsp = some r := rfl
@[simp] theorem respond_script : (respond r s).script = s.script := rfl
@[simp] theorem respond_delivered : (respond r s).delivered = s.delivered := rfl
@[simp] theorem respond_wasReset : (respond r s).wasReset = s.wasReset := rfl

@[simp] theorem raiseFault_cfg : (raiseFault c s).cfg = s.cfg := rfl
@[simp] theorem raiseFault_fault : (raiseFault c s).fault = true := rfl
@[simp] theorem raiseFault_cause : (raiseFault c s).cause = c := rfl
@[simp] theorem raiseFault_olen : (raiseFault c s).olen = 0 := rfl
@[simp] theorem raiseFault_obuf : (raiseFault c s).obuf = [] := rfl
@[simp] theorem raiseFault_rsp : (raiseFault c s).rsp = some (.fault c) := rfl
@[simp] theorem raiseFault_script : (raiseFault c s).script = s.script := rfl
@[simp] theorem raiseFault_delivered : (raiseFault c s).delivered = s.delivered := rfl
@[simp] theorem raiseFault_wasReset : (raiseFault c s).wasReset = s.wasReset := rfl

@[simp] theorem deliver_cfg : (deliver s).cfg = s.cfg := rfl
@[simp] theorem deliver_fault : (deliver s).fault = s.fault := rfl
@[simp] theorem deliver_cause : (deliver s).cause = s.cause := rfl
@[simp] theorem deliver_olen : (deliver s).olen = s.olen := rfl
@[simp] theorem deliver_obuf : (deliver s).obuf = s.obuf := rfl
@[simp] theorem deliver_rsp : (deliver s).rsp = none := rfl
@[simp] theorem deliver_script : (deliver s).script = s.script := rfl
@[simp] theorem deliver_delivered : (deliver s).delivered = s.delivered ++ s.rsp.toList := rfl
@[simp] theorem deliver_wasReset : (deliver s).wasReset = s.wasReset := rfl

@[simp] theorem applyReset_cfg : (applyReset s).cfg = s.cfg := rfl
@[simp] theorem applyReset_fault : (applyReset s).fault = false := rfl
@[simp] theorem applyReset_cause : (applyReset s).cause = .none := rfl
@[simp] theorem applyReset_olen : (applyReset s).olen = 0 := rfl
@[simp] theorem applyReset_obuf : (applyReset s).obuf = [] := rfl
@[simp] theorem applyReset_rsp : (applyReset s).rsp = none := rfl
@[simp] theorem applyReset_script : (applyReset s).script = s.script := rfl
@[simp] theorem applyReset_delivered : (applyReset s).delivered = [] := rfl
@[simp] theorem applyReset_wasReset : (applyReset s).wasReset = true := rfl

@[simp] theorem withFetchWord_cfg : (s.withFetchWord nbits w).cfg = s.cfg := rfl
@[simp] theorem withFetchWord_fault : (s.withFetchWord nbits w).fault = s.fault := rfl
@[simp] theorem withFetchWord_cause : (s.withFetchWord nbits w).cause = s.cause := rfl
@[simp] theorem withFetchWord_olen : (s.withFetchWord nbits w).olen = s.olen := rfl
@[simp] theorem withFetchWord_obuf : (s.withFetchWord nbits w).obuf = s.obuf := rfl
@[simp] theorem withFetchWord_rsp : (s.withFetchWord nbits w).rsp = none := rfl
@[simp] theorem withFetchWord_script : (s.withFetchWord nbits w).script = .request (tableRequest s.cfg.xlen nbits w) :: s.script := rfl
@[simp] theorem withFetchWord_delivered : (s.withFetchWord nbits w).delivered = s.delivered ++ s.rsp.toList := rfl
@[simp] theorem withFetchWord_wasReset : (s.withFetchWord nbits w).wasReset = s.wasReset := rfl

end Sys2Proof.Machine
end

