-- ==== Sys2Proof/Laws/Memory.lean ====
section
/-! SUPPORT. What the operations over OBUF do: the canonical form is kept, a read after a write, and
what the stores of a result leave. -/

namespace Sys2Proof.Machine

/-- The canonical form of a memory that begins with a cell. -/
theorem Memory.wf_cons {a : Nat} {b : Byte} {m : Memory} :
    Memory.wf ((a, b) :: m) = true ↔ (∀ x ∈ m.head?, a < x.1) ∧ Memory.wf m = true := by
  cases m <;> simp [Memory.wf]

/-- The first address after a write is the written one or the first before. -/
theorem Memory.head_write (m : Memory) (i : Nat) (b : Byte) :
    ∀ x ∈ (Memory.write m i b).head?, x.1 = i ∨ x ∈ m.head? := by
  cases m with
  | nil => simp [Memory.write]
  | cons y m =>
    obtain ⟨a, v⟩ := y
    simp only [Memory.write]
    split_ifs <;> simp

/-- A write keeps the canonical form. -/
theorem Memory.write_wf {m : Memory} (i : Nat) (b : Byte) (h : Memory.wf m = true) :
    Memory.wf (Memory.write m i b) = true := by
  induction m with
  | nil => simp [Memory.write, Memory.wf]
  | cons y m ih =>
    obtain ⟨a, v⟩ := y
    obtain ⟨hd, tl⟩ := Memory.wf_cons.1 h
    simp only [Memory.write]
    split_ifs with h1 h2
    · exact Memory.wf_cons.2 ⟨by simpa using h1, h⟩
    · exact Memory.wf_cons.2 ⟨by simpa [h2] using hd, tl⟩
    · refine Memory.wf_cons.2 ⟨fun x hx => ?_, ih tl⟩
      rcases Memory.head_write m i b x hx with hx | hx
      · omega
      · exact hd x hx

/-- Every address below the first listed one is unlisted. -/
theorem Memory.read_below {m : Memory} {i : Nat} (h : Memory.wf m = true)
    (hi : ∀ x ∈ m.head?, i < x.1) : Memory.read m i = none := by
  induction m with
  | nil => rfl
  | cons y m ih =>
    obtain ⟨a, v⟩ := y
    obtain ⟨hd, tl⟩ := Memory.wf_cons.1 h
    have hia : i < a := hi (a, v) (by simp)
    have : a ≠ i := by omega
    simp only [Memory.read, this, if_false]
    exact ih tl fun x hx => lt_trans hia (hd x hx)

/-- A read after a write: the written byte at its address, every other address as before. -/
theorem Memory.read_write {m : Memory} (i j : Nat) (b : Byte) (h : Memory.wf m = true) :
    Memory.read (Memory.write m i b) j = if j = i then some b else Memory.read m j := by
  induction m with
  | nil => simp [Memory.write, Memory.read, eq_comm]
  | cons y m ih =>
    obtain ⟨a, v⟩ := y
    obtain ⟨-, tl⟩ := Memory.wf_cons.1 h
    rcases lt_trichotomy i a with h1 | rfl | h1
    · by_cases h3 : j = i
      · simp [Memory.write, Memory.read, h1, h3]
      · simp [Memory.write, Memory.read, h1, h3, Ne.symm h3]
    · by_cases h3 : j = i
      · simp [Memory.write, Memory.read, h3]
      · simp [Memory.write, Memory.read, h3, Ne.symm h3]
    · by_cases h3 : j = i
      · subst h3
        simp [Memory.write, Memory.read, ih tl, show ¬ j < a by omega, show ¬ j = a by omega,
          show ¬ a = j by omega]
      · simp [Memory.write, Memory.read, ih tl, h3, show ¬ i < a by omega, show ¬ i = a by omega]

/-- Cells listed at consecutive addresses from `i` up. -/
def cellsFrom (i : Nat) : List Byte → Memory
  | [] => []
  | b :: bs => (i, b) :: cellsFrom (i + 1) bs

theorem cellsFrom_fst (i : Nat) (bs : List Byte) :
    (cellsFrom i bs).map Prod.fst = List.range' i bs.length := by
  induction bs generalizing i with
  | nil => rfl
  | cons b bs ih => simp [cellsFrom, ih, List.range'_succ]

theorem cellsFrom_snd (i : Nat) (bs : List Byte) : (cellsFrom i bs).map Prod.snd = bs := by
  induction bs generalizing i with
  | nil => rfl
  | cons b bs ih => simp [cellsFrom, ih]

/-- A memory is given by its addresses and its bytes. -/
theorem eq_cellsFrom {m : Memory} {i n : Nat} (h : m.map Prod.fst = List.range' i n) :
    m = cellsFrom i (m.map Prod.snd) := by
  induction m generalizing i n with
  | nil => rfl
  | cons y m ih =>
    obtain ⟨a, v⟩ := y
    cases n with
    | zero => simp at h
    | succ n =>
      rw [List.range'_succ] at h
      simp only [List.map_cons, List.cons.injEq] at h
      simp only [List.map_cons, cellsFrom, List.cons.injEq]
      exact ⟨by rw [h.1], ih h.2⟩

theorem cellsFrom_wf (i : Nat) (bs : List Byte) : Memory.wf (cellsFrom i bs) = true := by
  induction bs generalizing i with
  | nil => rfl
  | cons b bs ih =>
    refine Memory.wf_cons.2 ⟨?_, ih _⟩
    cases bs <;> simp [cellsFrom]

theorem cellsFrom_read (i : Nat) (bs : List Byte) (j : Nat) :
    Memory.read (cellsFrom i bs) j = if j < i then none else bs[j - i]? := by
  induction bs generalizing i with
  | nil => simp [cellsFrom, Memory.read]
  | cons b bs ih =>
    simp only [cellsFrom, Memory.read, ih]
    by_cases h1 : i = j
    · simp [h1]
    · by_cases h2 : j < i
      · simp [h1, h2, show j < i + 1 by omega]
      · obtain ⟨k, rfl⟩ : ∃ k, j = i + 1 + k := ⟨j - (i + 1), by omega⟩
        rw [if_neg h1, if_neg (by omega), if_neg h2, show i + 1 + k - i = k + 1 by omega]
        simp

/-- A write just past the last listed address appends. -/
theorem Memory.write_append {i : Nat} {bs : List Byte} (b : Byte) :
    Memory.write (cellsFrom i bs) (i + bs.length) b = cellsFrom i (bs ++ [b]) := by
  induction bs generalizing i with
  | nil => rfl
  | cons x bs ih =>
    have h := ih (i := i + 1)
    rw [show i + 1 + bs.length = i + (bs.length + 1) by omega] at h
    simp [cellsFrom, Memory.write, h]

/-- What consecutive stores do, on top of bytes stored before them. -/
theorem storeFrom_spec (bs pre : List Byte) (s : State) (hm : s.obuf = cellsFrom 0 pre)
    (hn : pre.length + bs.length ≤ s.cfg.nmax) :
    storeFrom pre.length bs s = .ok { s with obuf := cellsFrom 0 (pre ++ bs) } := by
  induction bs generalizing pre s with
  | nil => simp [storeFrom, ← hm]
  | cons b bs ih =>
    have hw : Memory.write (cellsFrom 0 pre) pre.length b = cellsFrom 0 (pre ++ [b]) := by
      simpa using Memory.write_append (i := 0) (bs := pre) b
    have hlt : pre.length < s.cfg.nmax := by simp at hn; omega
    have hrec := ih (pre ++ [b]) { s with obuf := cellsFrom 0 (pre ++ [b]) } rfl
      (by simp at hn ⊢; omega)
    simpa [storeFrom, storeByte, hlt, hm, hw] using hrec

/-- What the stores of a result do: the bytes at 0, 1, …, OLEN their number, the rest of the state as
before; and they do not fail while the buffer holds them. -/
theorem storeResult_spec (bs : List Byte) (s : State) (hn : bs.length ≤ s.cfg.nmax) :
    storeResult bs s = .ok { s with olen := bs.length, obuf := cellsFrom 0 bs } := by
  have h := storeFrom_spec bs [] (withdraw s) rfl (by simpa using hn)
  simp only [List.length_nil, List.nil_append] at h
  simp only [storeResult, h]
  rfl

/-- The stores keep the canonical form, and so does withdrawing a result. -/
theorem storeByte_wf {s t : State} {i : Nat} {b : Byte} (h : storeByte i b s = .ok t)
    (hs : Memory.wf s.obuf = true) : Memory.wf t.obuf = true := by
  unfold storeByte at h
  split at h
  · obtain rfl := Except.ok.inj h
    exact Memory.write_wf i b hs
  · cases h

theorem storeFrom_wf {s t : State} {i : Nat} {bs : List Byte} (h : storeFrom i bs s = .ok t)
    (hs : Memory.wf s.obuf = true) : Memory.wf t.obuf = true := by
  induction bs generalizing i s with
  | nil => obtain rfl := Except.ok.inj h; exact hs
  | cons b bs ih =>
    simp only [storeFrom] at h
    split at h
    · exact ih h (storeByte_wf ‹_› hs)
    · cases h

theorem storeResult_wf {s t : State} {bs : List Byte} (h : storeResult bs s = .ok t) :
    Memory.wf t.obuf = true := by
  unfold storeResult at h
  split at h
  next u hu =>
    obtain rfl := Except.ok.inj h
    exact storeFrom_wf (t := u) hu rfl
  next => cases h

theorem withdraw_wf (s : State) : Memory.wf (withdraw s).obuf = true := rfl

theorem reset_wf : Memory.wf State.reset.obuf = true := rfl

/-- Reading a byte of a buffer that holds exactly the bytes `bs`. -/
theorem readByte_cells {s : State} {bs : List Byte} (hm : s.obuf = cellsFrom 0 bs)
    (ho : s.olen = bs.length) (hn : bs.length ≤ s.cfg.nmax) {i : Nat} (hi : i < bs.length) :
    readByte s i = .ok bs[i] := by
  have h1 : ¬ s.cfg.nmax ≤ i := by omega
  have h2 : ¬ s.olen ≤ i := by omega
  simp [readByte, h1, h2, hm, cellsFrom_read, hi]

/-- No byte at or above OLEN has a value. -/
theorem readByte_beyond {s : State} {i : Nat} (h : s.olen ≤ i) :
    readByte s i = .error (if s.cfg.nmax ≤ i then .noSuchIndex else .unspecifiedByte) := by
  unfold readByte
  split_ifs <;> rfl

end Sys2Proof.Machine
end

