-- ==== Sys2Proof/Laws/Packer.lean ====
section
/-! SUPPORT. The result bytes of stage 4 and their reading as a number. -/

namespace Sys2Proof.Machine

/-- A result byte as a number. -/
theorem resultByte_toNat (v n i : Nat) : (resultByte v n i).toNat = v / 256 ^ (n - 1 - i) % 256 := by
  simp [resultByte, Nat.shiftRight_eq_div_pow, pow_mul]

@[simp] theorem packBytes_length (v n : Nat) : (packBytes v n).length = n := by simp [packBytes]

theorem packBytes_getElem (v n i : Nat) (h : i < (packBytes v n).length) :
    (packBytes v n)[i] = resultByte v n i := by simp [packBytes]

/-- One more byte of result: the same bytes of the number's upper part, and its last byte. -/
theorem packBytes_succ (v n : Nat) :
    packBytes v (n + 1) = packBytes (v / 256) n ++ [BitVec.ofNat 8 (v % 256)] := by
  unfold packBytes
  rw [List.range_succ, List.map_append]
  congr 1
  · apply List.map_congr_left
    intro i hi
    have hi := List.mem_range.1 hi
    apply BitVec.eq_of_toNat_eq
    rw [resultByte_toNat, resultByte_toNat, Nat.div_div_eq_div_mul, ← pow_succ']
    congr 3; omega
  · simp only [List.map_cons, List.map_nil, List.cons.injEq, and_true]
    apply BitVec.eq_of_toNat_eq
    rw [resultByte_toNat]; simp

theorem os2ip_append_singleton (bs : List Byte) (b : Byte) :
    os2ip (bs ++ [b]) = os2ip bs * 256 + b.toNat := by
  simp [os2ip]

end Sys2Proof.Machine
end

