-- ==== Sys2Proof/Laws/Encode.lean ====
section
/-! SUPPORT. What ENCODE can do, said once: the four checks on integers, and the outcomes of
`execEncode`. -/

namespace Sys2Proof.Machine

variable {w : Nat}

/-- No check fails exactly when the operands are encodable. -/
theorem failedCheck_none_iff (nmax : Nat) (v n : BitVec w) :
    failedCheck nmax v n = none ↔ PassesChecks nmax (sint v) (sint n) := by
  unfold failedCheck PassesChecks
  have h1 := one_le_reqbytes (sint v).toNat
  by_cases hv : 0 ≤ sint v
  · have : requiredBytes v = reqbytes (sint v).toNat := by rw [requiredBytes_eq, sint_toNat hv]
    rw [this]
    split_ifs <;> simp <;> omega
  · have : ¬ sint v ≥ 0 := hv
    simp only [this, not_false_eq_true, if_true]
    split_ifs <;> simp

/-- The check that fails is the cause of the response function, and none fails where it answers OK. -/
theorem response_of_failedCheck (nmax : Nat) (v n : BitVec w) :
    response nmax (sint v) (sint n) =
      match failedCheck nmax v n with
      | some c => .fault c
      | none => .ok (packBytes (sint v).toNat (sint n).toNat) := by
  unfold failedCheck response
  by_cases hn : sint n ≤ 0
  · simp [hn]
  by_cases hv : sint v < 0
  · simp [hn, hv, show 0 < sint n by omega]
  have hr : requiredBytes v = reqbytes (sint v).toNat := by rw [requiredBytes_eq, sint_toNat (by omega)]
  rw [hr]
  by_cases h3 : sint n < reqbytes (sint v).toNat
  · simp [hn, hv, h3, show 0 < sint n by omega]
  by_cases h4 : (nmax : Int) < sint n
  · simp [hn, hv, h3, h4, show 0 < sint n by omega]
  · simp [hn, hv, h3, h4, show 0 < sint n by omega, packBytes, resultByte, Nat.shiftRight_eq_div_pow]

/-- What a failing check does: fault entry with its cause. -/
theorem execEncode_fault {s : State} {v n : BitVec s.cfg.xlen} {c : Cause} (hf : s.fault = false)
    (hc : failedCheck s.cfg.nmax v n = some c) :
    execEncode s.cfg.xlen v n s = .next (raiseFault c s) := by
  simp [execEncode, hf, hc]

/-- What a successful ENCODE does, as one state. -/
theorem execEncode_ok {s : State} {v n : BitVec s.cfg.xlen} (hf : s.fault = false)
    (hc : failedCheck s.cfg.nmax v n = none) :
    execEncode s.cfg.xlen v n s = .next
      { s with
        olen := (sint n).toNat
        obuf := cellsFrom 0 (packBytes (sint v).toNat (sint n).toNat)
        rsp := some (.ok (packBytes (sint v).toNat (sint n).toNat)) } := by
  have he := (failedCheck_none_iff _ v n).1 hc
  have hl : (packBytes (sint v).toNat (sint n).toNat).length ≤ s.cfg.nmax := by
    have := he.2.2; simp; omega
  simp [execEncode, hf, hc, storeResult_spec _ _ hl, respond]

/-- The state a request leaves, when FAULT = 0 (R41). -/
def afterResponse (s : State) : Response → State
  | .fault c => raiseFault c s
  | .ok bytes => { s with olen := bytes.length, obuf := cellsFrom 0 bytes, rsp := some (.ok bytes) }

/-- Every accepted request is answered with the response function's response (R41, R47). -/
theorem execEncode_eq {s : State} (v n : BitVec s.cfg.xlen) (hf : s.fault = false) :
    execEncode s.cfg.xlen v n s =
      .next (afterResponse s (response s.cfg.nmax (sint v) (sint n))) := by
  rw [response_of_failedCheck]
  cases hc : failedCheck s.cfg.nmax v n with
  | some c => exact execEncode_fault hf hc
  | none => rw [execEncode_ok hf hc]; simp [afterResponse]

/-- Everything `execEncode` can answer with a next state. -/
theorem execEncode_next {s t : State} {xlen : Nat} {v n : BitVec xlen}
    (h : execEncode xlen v n s = .next t) :
    xlen = s.cfg.xlen ∧ s.fault = false ∧
      t = afterResponse s (response s.cfg.nmax (sint v) (sint n)) := by
  by_cases hx : xlen = s.cfg.xlen
  · subst hx
    cases hf : s.fault with
    | true => simp [execEncode, hf] at h
    | false =>
      rw [execEncode_eq v n hf] at h
      exact ⟨rfl, rfl, (Host.Outcome.next.inj h).symm⟩
  · simp [execEncode, hx] at h

/-- What `execEncode` answers when it stops. -/
theorem execEncode_stops {s : State} {xlen : Nat} {v n : BitVec xlen} {f : Fault}
    (h : execEncode xlen v n s = .fault f) : f = .stuck ∧ s.fault = true := by
  by_cases hx : xlen = s.cfg.xlen
  · subst hx
    cases hf : s.fault with
    | true => simp [execEncode, hf] at h; exact ⟨h.symm, rfl⟩
    | false => rw [execEncode_eq v n hf] at h; cases h
  · simp [execEncode, hx] at h

/-- The cause of a FAULT response is one of the four, with the condition of its row in R72. -/
theorem response_fault_cases {nmax : Nat} {v n : Int} {c : Cause}
    (h : response nmax v n = .fault c) :
    (c = .zeroWidth ∧ n ≤ 0) ∨ (c = .negativeValue ∧ 0 < n ∧ v < 0) ∨
      (c = .insufficientWidth ∧ 0 < n ∧ 0 ≤ v ∧ n < reqbytes v.toNat) ∨
      (c = .capacity ∧ 0 ≤ v ∧ (reqbytes v.toNat : Int) ≤ n ∧ (nmax : Int) < n) := by
  unfold response at h
  split_ifs at h with h1 h2 h3 h4 <;> cases h
  · exact .inl ⟨rfl, h1⟩
  · exact .inr (.inl ⟨rfl, by omega, h2⟩)
  · exact .inr (.inr (.inl ⟨rfl, by omega, by omega, h3⟩))
  · exact .inr (.inr (.inr ⟨rfl, by omega, by omega, h4⟩))

/-- An OK response carries at least one and at most NMAX bytes, those of R64. -/
theorem response_ok_cases {nmax : Nat} {v n : Int} {bs : List Byte}
    (h : response nmax v n = .ok bs) :
    PassesChecks nmax v n ∧ bs = packBytes v.toNat n.toNat := by
  unfold response at h
  split_ifs at h with h1 h2 h3 h4
  cases h
  refine ⟨⟨by omega, by omega, by omega⟩, ?_⟩
  simp [packBytes, resultByte, Nat.shiftRight_eq_div_pow]

end Sys2Proof.Machine
end

