-- ==== Sys2Proof/Laws/PerInstr.lean ====
section
/-! SUPPORT. Families of statements about every instruction as syntax, one lemma per constructor. -/

namespace Sys2Proof.Laws.RequestLength

/-- The request word of a well-formed instruction has 2*XLEN bits (R32). -/
def Statement (i : Instr) : Prop :=
  ∀ c : Config, WellFormed c i = true → (Sys2Proof.encode i).width = requestBits c.xlen

theorem encode (xlen : Nat) (value obc : BitVec xlen) : Statement (.encode xlen value obc) := by
  intro c h
  have : xlen = c.xlen := by simpa [WellFormed] using h
  simp [Sys2Proof.encode, requestBits, this]

end Sys2Proof.Laws.RequestLength
end

