-- ==== Sys2Proof/Laws/Step.lean ====
section
/-! SUPPORT. What a step can do, said once. -/

namespace Sys2Proof.Machine

/-- Every word of 2*XLEN bits decodes (R34). -/
theorem decode_request {c : Config} {word : RequestWord} (h : IsRequestWord c word) :
    decode c word = .ok (.encode c.xlen (valueField c.xlen word) (obcField c.xlen word)) :=
  if_pos h

/-- No other string of bits does (R36). -/
theorem decode_other {c : Config} {word : RequestWord} (h : ¬ IsRequestWord c word) :
    decode c word = .error .wrongLength :=
  if_neg h

/-- A request presented after reset is handed to acceptance. -/
theorem step_request {s : State} {word : RequestWord} {rest : List HostAct}
    (hw : s.wasReset = true) (hs : s.script = .request word :: rest) :
    step s = presentRequest word rest s := by
  simp [step, hs, perform, afterFirstReset, hw]

/-- A request accepted is executed. -/
theorem presentRequest_accepts {s : State} {word : RequestWord} {rest : List HostAct}
    (hf : s.fault = false) (hr : s.rsp = none) (hl : IsRequestWord s.cfg word) :
    presentRequest word rest s =
      .next (afterResponse { s with script := rest } (requestResponse s.cfg word)) := by
  have h := execEncode_eq (s := { s with script := rest }) (valueField s.cfg.xlen word)
    (obcField s.cfg.xlen word) hf
  rw [presentRequest, if_neg (by simp [hf]), if_neg (by simp [hr]), decode_request hl]
  exact h

/-- Everything a presented request can be answered with a next state. -/
theorem presentRequest_next {s t : State} {word : RequestWord} {rest : List HostAct}
    (h : presentRequest word rest s = .next t) :
    s.fault = false ∧ ((t = s ∧ ∃ r, s.rsp = some r) ∨
      (s.rsp = none ∧ IsRequestWord s.cfg word ∧
        t = afterResponse { s with script := rest } (requestResponse s.cfg word))) := by
  by_cases hf : s.fault = true
  · simp [presentRequest, hf] at h
  have hf : s.fault = false := by simpa using hf
  refine ⟨hf, ?_⟩
  rcases Option.eq_none_or_eq_some s.rsp with hr | ⟨r, hr⟩
  · by_cases hl : IsRequestWord s.cfg word
    · rw [presentRequest_accepts hf hr hl] at h
      exact .inr ⟨hr, hl, (Host.Outcome.next.inj h).symm⟩
    · simp [presentRequest, hf, hr, decode_other hl] at h
  · simp [presentRequest, hf, hr] at h
    exact .inl ⟨h.symm, r, hr⟩

/-- Everything a step can answer with a next state: reset, an accepted request, a request or a block
that waits, a delivery, a sampled response. -/
theorem step_next {s t : State} (h : step s = .next t) :
    (∃ rest, s.script = .reset :: rest ∧ t = applyReset { s with script := rest }) ∨
    (s.wasReset = true ∧
      ((s.fault = false ∧ t = s ∧
          (s.script = [] ∨ ∃ word rest r, s.script = .request word :: rest ∧ s.rsp = some r)) ∨
       (∃ word rest, s.script = .request word :: rest ∧ s.fault = false ∧ s.rsp = none ∧
          IsRequestWord s.cfg word ∧
          t = afterResponse { s with script := rest } (requestResponse s.cfg word)) ∨
       (∃ rest, s.script = .take :: rest ∧ t = deliver { s with script := rest }) ∨
       (∃ rest r, s.script = .readResponse :: rest ∧ s.rsp = some r ∧
          t = { s with script := rest }))) := by
  unfold step at h
  split at h
  next hs =>
    unfold afterFirstReset idle at h
    split_ifs at h with hw hf
    exact .inr ⟨hw, .inl ⟨by simpa using hf, (Host.Outcome.next.inj h).symm, .inl hs⟩⟩
  next act rest hs =>
    cases act with
    | reset => exact .inl ⟨rest, hs, (Host.Outcome.next.inj h).symm⟩
    | take =>
      unfold perform afterFirstReset at h
      split_ifs at h with hw
      exact .inr ⟨hw, .inr (.inr (.inl ⟨rest, hs, (Host.Outcome.next.inj h).symm⟩))⟩
    | unstable _ _ =>
      unfold perform afterFirstReset at h
      split_ifs at h
    | readResponse =>
      unfold perform afterFirstReset readResponse at h
      split_ifs at h with hw hr
      obtain ⟨r, hr⟩ := Option.isSome_iff_exists.1 hr
      exact .inr ⟨hw, .inr (.inr (.inr ⟨rest, r, hs, hr, (Host.Outcome.next.inj h).symm⟩))⟩
    | request word =>
      unfold perform afterFirstReset at h
      split_ifs at h with hw
      obtain ⟨hf, ⟨rfl, r, hr⟩ | ⟨hr, hl, rfl⟩⟩ := presentRequest_next h
      · exact .inr ⟨hw, .inl ⟨hf, rfl, .inr ⟨word, rest, r, hs, hr⟩⟩⟩
      · exact .inr ⟨hw, .inr (.inl ⟨word, rest, hs, hf, hr, hl, rfl⟩)⟩

/-- A request accepted: the step is its response and the state it leaves. -/
theorem step_accepts {s : State} {word : RequestWord} {rest : List HostAct}
    (ha : s.Accepting) (hs : s.script = .request word :: rest) (hl : IsRequestWord s.cfg word) :
    step s = .next (afterResponse { s with script := rest } (requestResponse s.cfg word)) := by
  rw [step_request ha.1 hs]
  exact presentRequest_accepts ha.2.1 ha.2.2 hl

/-- A run of one step more. -/
theorem runSteps_succ {k : Nat} {s t : State} (h : step s = .next t) :
    runSteps (k + 1) s = runSteps k t := by
  have hc : Sys2Proof.core.step s = .next t := h
  simp only [runSteps, Host.Core.run, hc]
  rfl

/-- A response taken. -/
theorem step_take {s : State} {rest : List HostAct} (hw : s.wasReset = true)
    (hs : s.script = .take :: rest) : step s = .next (deliver { s with script := rest }) := by
  simp [step, hs, perform, afterFirstReset, hw]

end Sys2Proof.Machine
end

