-- ==== Sys2Proof/Tests/Slice0.lean ====
section
/-! SUPPORT. Tests of the model, with expected results from spec/95_test_vectors.md, and for every
statement that has hypotheses a witness that meets them. -/

namespace Sys2Proof.Tests

open Sys2Proof Sys2Proof.Machine

/-- A block of XLEN = 16, NMAX = 2 right after reset (section 2.7), with these host acts to come. -/
def small (script : List HostAct) : State :=
  { State.reset with cfg := { xlen := 16, nmax := 2 }, script := script }

/-- The same block after a ZERO_WIDTH fault whose response was taken. -/
def faulted (script : List HostAct) : State :=
  { small script with fault := true, cause := .zeroWidth, delivered := [.fault .zeroWidth] }

/-- The request word of `encode(v, n)` at XLEN = 16. -/
def word (n v : BitVec 16) : RequestWord := { width := 32, bits := n ++ v }

/-- The predicate holds of the next state. -/
def nextIs (o : Host.Outcome State Fault Refusal) (p : State → Bool) : Bool :=
  match o with
  | .next t => p t
  | _ => false

/-! ### WellFormed and the decoder -/

theorem test_wellFormed_refuses_other_width :
    WellFormed { xlen := 16, nmax := 2 } (.encode 8 1 1) = false := by decide

/-- V-S4, bit by bit: OBC = 2 in bits 127..64, VALUE = 256 in bits 63..0. -/
theorem test_decode_word_of_encode_256_2 :
    decode Config.reference ⟨128, 0b10#64 ++ 0b100000000#64⟩ = .ok (.encode 64 256#64 2#64) := by decide

/-- Section 2.7, XLEN = 8: 80:FF is `encode(-1, -128)`. -/
theorem test_decode_word_80FF :
    decode { xlen := 8, nmax := 1 } ⟨16, 0b1000000011111111#16⟩ = .ok (.encode 8 (-1) (-128)) := by decide

theorem test_encode_word_of_encode_256_2 :
    encode (.encode 16 256#16 2#16) = ⟨32, 0x00020100#32⟩ := by decide

/-- Bits that do not fit a request word are refused. -/
theorem test_table_word_too_long : decodeTableWord 136 (2 ^ 128) = none := by decide

/-- The opcode table's row, all operand bits 0, is ENCODE. -/
theorem test_table_word_decodes : decodeTableWord 128 0 = some (.encode 64 0 0) := by decide

/-! ### Stages, from the tables of section 2.2 -/

theorem test_leading_zeros :
    clz 256#64 = 55 ∧ bitLength 256#64 = 9 ∧ clz 0#64 = 64 ∧ clz 0x7FFFFFFFFFFFFFFF#64 = 1 := by decide

theorem test_required_bytes :
    requiredBytes 0#64 = 1 ∧ requiredBytes 255#64 = 1 ∧ requiredBytes 256#64 = 2 ∧
      requiredBytes 65536#64 = 3 ∧ requiredBytes 0x7FFFFFFFFFFFFFFF#64 = 8 := by decide

/-! ### ENCODE, one step from reset, reference configuration -/

/-- `encode(43981, 9)` of section 2.4: shift amounts of 64 and more give 0. -/
theorem test_encode_pads_beyond_operand :
    nextIs (step (State.reset.withFetchWord 128 (9 * 2 ^ 64 + 0xABCD)))
      (fun t => t.rsp == some (.ok [0, 0, 0, 0, 0, 0, 0, 0xAB, 0xCD]) && t.olen == 9 && !t.fault) = true := by
  decide

/-- `encode(-1, 0)` of section 2.1: check 1 before check 2; nothing is delivered. -/
theorem test_encode_check_order :
    nextIs (step (State.reset.withFetchWord 128 0xFFFFFFFFFFFFFFFF))
      (fun t => t.rsp == some (.fault .zeroWidth) && t.fault && t.olen == 0) = true := by
  decide

/-! ### Witnesses -/

theorem witness_legal : (small []).cfg.Legal := by decide

theorem witness_accepting : (small []).Accepting := ⟨rfl, rfl, rfl⟩

theorem witness_inv (script : List HostAct) : (small script).Inv where
  wasReset := rfl
  legal := witness_legal
  causeIff := ⟨fun _ => rfl, fun _ => rfl⟩
  withdrawn := fun h => nomatch h
  olenLe := Nat.zero_le _
  domain := rfl
  okShown := fun _ h => nomatch h
  faultShown := fun _ h => nomatch h

/-- A state with a result of two bytes that meets the invariant, and its response presented. -/
def holding : State :=
  { small [] with olen := 2, obuf := [(0, 1), (1, 0)], rsp := some (.ok [1, 0]) }

theorem witness_inv_holding : holding.Inv where
  wasReset := rfl
  legal := by decide
  causeIff := by decide
  withdrawn := by decide
  olenLe := by decide
  domain := rfl
  okShown := by rintro _ ⟨⟩; exact ⟨rfl, rfl, by decide⟩
  faultShown := fun _ h => nomatch h

theorem exec_small (v n : BitVec 16) :
    exec (.encode 16 v n) (small []) =
      .next (afterResponse (small []) (response 2 (sint v) (sint n))) :=
  execEncode_eq (s := small []) v n rfl

theorem witness_DecodeOfEncode : WellFormed (small []).cfg (.encode 16 256 2) = true := by decide

theorem witness_EncodeOfDecode :
    decode (small []).cfg (word 2 256) = .ok (.encode 16 256 2) := by decide

theorem witness_OtherLengthsRefused :
    (⟨31, 0⟩ : RequestWord).width ≠ requestBits (small [.request ⟨31, 0⟩]).cfg.xlen ∧
      (small [.request ⟨31, 0⟩]).Accepting := ⟨by decide, rfl, rfl, rfl⟩

theorem witness_AssemblerIsExact :
    (small []).cfg.Legal ∧ (Representable 16 (-32768) ∧ Representable 16 32767) ∧
      ¬ (Representable 16 32768 ∧ Representable 16 0) := by decide

theorem witness_LeadingZeroCount :
    clz 1#16 < 16 ∧ (0x8000#16).getLsbD 15 = true ∧ (∀ k < 16, (0#16).getLsbD k = false) ∧
      0 ≤ sint 0x7FFF#16 := by decide

theorem witness_BitLengthOfValue : 0 ≤ sint 0#16 ∧ sint 0#16 = 0 ∧ 0 < sint 1#16 := by decide

theorem witness_RequiredBytesIsLeast : 1 ≤ 1 ∧ 255 < 256 ^ 1 ∧ ¬ 256 < 256 ^ 1 ∧ 0 ≤ sint 0x7FFF#16 := by
  decide

theorem witness_RequiredBytesByLanes :
    16 % 8 = 0 ∧ 8 ≤ 16 ∧ 0 ≤ sint 0x7FFF#16 ∧ sint 0x7FFF#16 = 2 ^ (16 - 1) - 1 := by decide

theorem witness_PaddingRange :
    failedCheck 2 0#16 1#16 = none ∧ failedCheck 2 1#16 2#16 = none := by decide

theorem witness_EveryValueHasAnEncoding :
    (small []).cfg.Legal ∧ 0 ≤ sint 256#16 ∧ (reqbytes (sint 256#16).toNat : Int) ≤ sint 2#16 ∧
      sint 2#16 ≤ (2 : Nat) ∧ 1 ≤ sint 1#16 := by decide

theorem witness_BitSliceForm : 16 % 8 = 0 ∧ 0 ≤ sint 256#16 ∧ 0 < 3 := by decide

/-- `encode(256, 2)` and `encode(0, 2)` complete with OK: PaddingThenWindow, RoundTripLaw, CanonicalForm,
EncodeFrame (its OK clause), EncodeIsIdempotent, NoStoreOutsideTheBuffer. -/
theorem witness_exec_ok :
    (∃ t, exec (.encode 16 256#16 2#16) (small []) = .next t ∧
      t.rsp = some (.ok [1, 0])) ∧
    (∃ t, exec (.encode 16 0#16 2#16) (small []) = .next t ∧
      t.rsp = some (.ok [0, 0])) :=
  ⟨⟨_, exec_small _ _, by decide⟩,
   ⟨_, exec_small _ _, by decide⟩⟩

/-- CanonicalForm, its second clause: `encode(1, 1)` and `encode(1, 2)`. -/
theorem witness_CanonicalForm :
    (∃ t, exec (.encode 16 1#16 1#16) (small []) = .next t ∧
      t.rsp = some (.ok [1])) ∧
    (∃ t, exec (.encode 16 1#16 2#16) (small []) = .next t ∧
      t.rsp = some (.ok [0, 1])) ∧ sint 1#16 ≤ sint 2#16 :=
  ⟨⟨_, exec_small _ _, by decide⟩,
   ⟨_, exec_small _ _, by decide⟩, by decide⟩

/-- `encode(256, 1)` completes with FAULT: FaultEntryIsTheWholeEffect (its second clause), EncodeFrame
(its fault clause). -/
theorem witness_exec_fault :
    ∃ t, exec (.encode 16 256#16 1#16) (small []) = .next t ∧ t.fault = true ∧
      t.rsp = some (.fault .insufficientWidth) :=
  ⟨_, exec_small _ _, by decide⟩

/-- Exact fit and full buffer, the boundaries of EncodeDeliversTheBytes. -/
theorem witness_EncodeDeliversTheBytes :
    (small []).fault = false ∧ 0 ≤ sint 0x7FFF#16 ∧
      (reqbytes (sint 0x7FFF#16).toNat : Int) ≤ sint 2#16 ∧ sint 2#16 ≤ ((small []).cfg.nmax : Int) := by
  decide

/-- FAULT = 0: ResponseFunction, FaultEntryIsTheWholeEffect and the statements of the four faults; the boundary operands of each
(sections 2.1, 2.3, 2.7): obc = 0; value = -32768; 256 in 1 byte; obc = NMAX + 1. -/
theorem witness_faults :
    failedCheck (small []).cfg.nmax 0#16 0#16 = some .zeroWidth ∧
    (small []).fault = false ∧ sint 0#16 ≤ 0 ∧ (0 < sint 1#16 ∧ sint 0x8000#16 < 0) ∧
      (0 < sint 1#16 ∧ 0 ≤ sint 256#16 ∧ sint 1#16 < reqbytes (sint 256#16).toNat) ∧
      ((reqbytes (sint 1#16).toNat : Int) ≤ sint 3#16 ∧ ((small []).cfg.nmax : Int) < sint 3#16) := by
  decide

/-- CapacityFault, its second clause: the largest buffer at XLEN = 16. -/
theorem witness_CapacityFault_largest :
    ({ small [] with cfg := { xlen := 16, nmax := 32767 } } : State).cfg.nmax = 2 ^ (16 - 1) - 1 := by
  decide

theorem witness_CheckOrderDecides :
    (small []).cfg.Legal ∧ (small []).fault = false ∧ (sint 0#16 ≤ 0 ∧ sint 0xFFFF#16 < 0) ∧
      (sint 0#16 ≤ 0 ∧ 0 ≤ sint 256#16 ∧ sint 0#16 < reqbytes (sint 256#16).toNat) ∧
      (0 < sint 3#16 ∧ sint 0xFFFF#16 < 0) ∧
      (0 < sint 1#16 ∧ 0 ≤ sint 256#16 ∧ sint 1#16 < reqbytes (sint 256#16).toNat) ∧
      (0 ≤ sint 1#16 ∧ (reqbytes (sint 1#16).toNat : Int) ≤ sint 3#16 ∧
        ((small []).cfg.nmax : Int) < sint 3#16) := by decide

/-- CheckOrderDecides, its last two clauses. -/
theorem witness_CheckOrderDecides_entered :
    EntersFault .zeroWidth (.encode 16 0#16 0#16) (small []) ∧
      FaultEntered .zeroWidth (small []) (raiseFault .zeroWidth (small [])) :=
  ⟨⟨_, exec_small _ _, rfl⟩, rfl⟩

theorem witness_NoStoreOutsideTheBuffer_stop :
    exec (.encode 16 1#16 1#16) (faulted []) = .fault .stuck := rfl

theorem witness_OtherWidthRefused : (8 : Nat) ≠ (small []).cfg.xlen := by decide

theorem witness_ResponseDependsOnOperandsOnly :
    holding.cfg = (small []).cfg ∧ WellFormed holding.cfg (.encode 16 256 2) = true ∧
      holding.fault = false ∧ (small []).fault = false ∧ holding.cause = .none ∧
      (small []).cause = .none := by decide

theorem witness_StepRunsTheDecodedRequest :
    (small [.request (word 2 256)]).wasReset = true ∧ (small [.request (word 2 256)]).rsp = none ∧
      decode (small [.request (word 2 256)]).cfg (word 2 256) = .ok (.encode 16 256 2) := by decide

theorem witness_TableWordRunsNext :
    State.reset.wasReset = true ∧
      decode State.reset.cfg (tableRequest State.reset.cfg.xlen 128 5) = .ok (.encode 64 5 0) := by decide

/-- AcceptanceRule (its two request clauses), FaultedBlockIsStuck (its second clause). -/
theorem witness_AcceptanceRule :
    (faulted [.request (word 2 256)]).wasReset = true ∧ (faulted [.request (word 2 256)]).fault = true ∧
      (small [.request (word 2 256)]).fault = false ∧ (small [.request (word 2 256)]).rsp = none ∧
      IsRequestWord (small []).cfg (word 2 256) := ⟨rfl, rfl, rfl, rfl, rfl⟩

/-- AcceptedRequestIsAnswered, RequestThenTakeIsOneAtomicStep (both its last clauses),
ResetDiscardsTheRequestInFlight. -/
theorem witness_request_acts :
    (small [.request (word 2 256), .take]).Accepting ∧
      (small [.request (word 2 256), .reset]).Accepting ∧
      IsRequestWord (small []).cfg (word 2 256) ∧
      requestResponse (small []).cfg (word 2 256) = .ok [1, 0] ∧
      requestResponse (small []).cfg (word 0 256) = .fault .zeroWidth :=
  ⟨⟨rfl, rfl, rfl⟩, ⟨rfl, rfl, rfl⟩, rfl, by decide, by decide⟩

/-- NextRequestWaitsForDelivery, DeliveryChangesNoArchitecture (its second clause). -/
theorem witness_response_pending :
    holding.wasReset = true ∧ holding.fault = false ∧ holding.rsp = some (.ok [1, 0]) := by decide

/-- DeliveryChangesNoArchitecture (first clause), HandshakeBreachRefused, IdleBlockWaits, ResetLeaves,
FaultedBlockIsStuck (first clause). -/
theorem witness_acts :
    (small [.take]).wasReset = true ∧ (small [.readResponse]).rsp = none ∧
      (small [.unstable (word 1 1) none]).wasReset = true ∧ (small []).script = [] ∧
      (faulted [.reset]).script.head? = some .reset ∧ (faulted []).wasReset = true ∧
      (faulted []).fault = true := by decide

/-- ResetLeaves, its second clause: two different states. -/
theorem witness_ResetLeaves_any_state :
    (faulted [.reset]).cfg = (small [.reset]).cfg ∧
      (faulted [.reset]).script = (small [.reset]).script ∧ faulted [.reset] ≠ small [.reset] := by decide

theorem witness_NothingBeforeTheFirstReset :
    ({ small [] with wasReset := false } : State).wasReset = false ∧
      ({ small [] with wasReset := false } : State).script.head? ≠ some .reset := by decide

theorem witness_OnlyResetClearsFault :
    (faulted [.reset]).fault = true ∧ step (faulted [.reset]) = .next (small []) := ⟨rfl, rfl⟩

/-- FaultedBlockIsStuck, its third clause: the FAULT response is taken. -/
theorem witness_FaultedBlockIsStuck_run :
    (faulted [.take]).fault = true ∧ .reset ∉ (faulted [.take]).script ∧
      runSteps 1 (faulted [.take]) = .next (faulted []) := ⟨rfl, by decide, rfl⟩

/-- StepKeepsInvariant, StepKeepsHistory. -/
theorem witness_step_from_inv : ∃ t, (small [.request (word 2 256)]).Inv ∧
    step (small [.request (word 2 256)]) = .next t :=
  ⟨_, witness_inv _, step_accepts ⟨rfl, rfl, rfl⟩ rfl rfl⟩

theorem witness_StepKeepsHistory : (faulted [.take]).HistoryAgrees :=
  ⟨fun h => (nomatch h), fun _ => ⟨[], fun _ h => (nomatch h), rfl⟩⟩

/-- InvariantGivesCanonicalMemory, ByteLanesOnThePort, ValidImpliesReady at indices 1 and 2. -/
theorem witness_bytes : holding.Inv ∧ 1 < holding.olen ∧ 8 * holding.olen ≤ 16 :=
  ⟨witness_inv_holding, by decide⟩

/-- RunEndsWell: two requests that succeed. -/
theorem witness_RunEndsWell :
    (small (programActs [word 1 1, word 2 256])).Accepting ∧
      (∀ w ∈ [word 1 1, word 2 256], IsRequestWord (small []).cfg w ∧
        ∃ bytes, requestResponse (small []).cfg w = .ok bytes) := by
  refine ⟨⟨rfl, rfl, rfl⟩, fun w h => ?_⟩
  rcases List.mem_pair.1 h with rfl | rfl
  · exact ⟨rfl, [1], by decide⟩
  · exact ⟨rfl, [1, 0], by decide⟩

/-- RunFaults: program P2 at XLEN = 16. -/
theorem witness_RunFaults :
    (small (programActs ([word 1 255] ++ word 1 256 :: [word 2 256]))).Accepting ∧
      (∀ w ∈ [word 1 255], IsRequestWord (small []).cfg w ∧
        ∃ bytes, requestResponse (small []).cfg w = .ok bytes) ∧
      IsRequestWord (small []).cfg (word 1 256) ∧
      requestResponse (small []).cfg (word 1 256) = .fault .insufficientWidth := by
  refine ⟨⟨rfl, rfl, rfl⟩, fun w h => ?_, rfl, by decide⟩
  obtain rfl := List.mem_singleton.1 h
  exact ⟨rfl, [255], by decide⟩

/-- `holding` with a request for its host's next act. -/
def waiting : State := { holding with script := [.request (word 1 1)] }

/-- RequestPortIsTheNextAct, both ways in which `req_ready` is 0: a response waits; FAULT = 1. -/
theorem witness_RequestPortIsTheNextAct :
    (waiting.wasReset = true ∧ reqValid waiting = true ∧ (ports waiting).reqReady = false) ∧
      ((faulted [.request (word 1 1)]).wasReset = true ∧
        reqValid (faulted [.request (word 1 1)]) = true ∧
        (ports (faulted [.request (word 1 1)])).reqReady = false) := by decide

theorem witness_InstancesShareNothing :
    stepInstance 1 [small [], faulted [.reset]] = .next [small [], small []] := rfl

end Sys2Proof.Tests
end

section
/-! PROOF. The response depends on the operands, XLEN and NMAX only (spec/10_state.md R11). -/

namespace Sys2Proof.Machine

/-- `exec` of an instruction of the block's width, with FAULT = 0: the response function decides the
next state (R41). -/
theorem exec_encode_eq {s : State} {xlen : Nat} (v n : BitVec xlen) (hx : xlen = s.cfg.xlen)
    (hf : s.fault = false) :
    exec (.encode xlen v n) s =
      .next (afterResponse s (response s.cfg.nmax (sint v) (sint n))) := by
  subst hx
  exact execEncode_eq v n hf

@[simp] theorem afterResponse_rsp (s : State) (r : Response) : (afterResponse s r).rsp = some r := by
  cases r <;> rfl

/-- One response leaves the same architectural state whatever OLEN and OBUF were: a FAULT sets all
four elements, an OK sets OLEN and OBUF and keeps FAULT and CAUSE. -/
theorem afterResponse_sameArchitecture {s₁ s₂ : State} (r : Response) (hf : s₂.fault = s₁.fault)
    (hc : s₂.cause = s₁.cause) : SameArchitecture (afterResponse s₁ r) (afterResponse s₂ r) := by
  cases r with
  | ok bytes => exact ⟨hf, hc, rfl, rfl⟩
  | fault c => exact ⟨rfl, rfl, rfl, rfl⟩

/-- Settles O33: `exec` answers with `afterResponse` of one and the same response, since the response
function reads only the operands and NMAX. -/
theorem responseDependsOnOperandsOnly : Obligations.ResponseDependsOnOperandsOnly := by
  intro s₁ s₂ i hcfg hwf hf₁ hf₂ hc₁ hc₂
  cases i with
  | encode xlen v n =>
    have hx : xlen = s₁.cfg.xlen := by simpa [WellFormed] using hwf
    have h₁ := exec_encode_eq v n hx hf₁
    have h₂ := exec_encode_eq v n (hx.trans (congrArg Config.xlen hcfg)) hf₂
    rw [← hcfg] at h₂
    exact ⟨_, _, h₁, h₂, by simp,
      afterResponse_sameArchitecture _ (hf₂.trans hf₁.symm) (hc₂.trans hc₁.symm)⟩

end Sys2Proof.Machine
end

section
/-! PROOF. The bytes of OBUF on the port `rsp_data` (spec/20_memory.md R22). -/

namespace Sys2Proof.Machine

/-- Under the invariant OBUF is given by its bytes alone: they stand at 0, 1, …, OLEN-1 (R9, R27). -/
theorem State.Inv.obuf_eq_cellsFrom {s : State} (h : s.Inv) :
    s.obuf = cellsFrom 0 (s.obuf.map Prod.snd) :=
  eq_cellsFrom (h.domain.trans List.range_eq_range')

theorem State.Inv.olen_eq_length {s : State} (h : s.Inv) :
    s.olen = (s.obuf.map Prod.snd).length := by
  simpa using (congrArg List.length h.domain).symm

/-- Under the invariant every byte below OLEN has a value (R9). -/
theorem State.Inv.exists_readByte {s : State} (h : s.Inv) {i : Nat} (hi : i < s.olen) :
    ∃ b, readByte s i = .ok b :=
  ⟨_, readByte_cells h.obuf_eq_cellsFrom h.olen_eq_length (h.olen_eq_length ▸ h.olenLe)
    (h.olen_eq_length ▸ hi)⟩

theorem dataLane_of_readByte {s : State} {i : Nat} {b : Byte} (h : readByte s i = .ok b) :
    dataLane s i = some b := by
  simp [dataLane, h, Except.toOption]

/-- The lanes at and above OLEN are unspecified (R9, U1). -/
theorem dataLane_beyond {s : State} {i : Nat} (h : s.olen ≤ i) : dataLane s i = none := by
  simp [dataLane, readByte_beyond h, Except.toOption]

@[simp] theorem ports_rspLen (s : State) : (ports s).rspLen = s.olen := rfl

@[simp] theorem ports_rspData_length (s : State) : (ports s).rspData.length = s.cfg.nmax := by
  simp [ports]

theorem ports_rspData_getElem? {s : State} {i : Nat} (h : i < s.cfg.nmax) :
    (ports s).rspData[i]? = some (dataLane s i) := by
  simp [ports, h]

/-- Lane i is bits 8i+7..8i of `rsp_data`. -/
theorem dataBit_of_lane (s : State) (i : Nat) {j : Nat} (hj : j < 8) :
    dataBit s (8 * i + j) = (dataLane s i).map (·.getLsbD j) := by
  have hlane : (8 * i + j) / 8 = i := by omega
  have hbit : (8 * i + j) % 8 = j := by omega
  rw [dataBit, hlane, hbit]

/-- No bit at or above 8*OLEN is specified: its lane is not below OLEN. -/
theorem dataBit_beyond {s : State} {k : Nat} (h : 8 * s.olen ≤ k) : dataBit s k = none := by
  have hlane : s.olen ≤ k / 8 := by omega
  rw [dataBit, dataLane_beyond hlane, Option.map_none]

/-- Settles O56: under the invariant a byte below OLEN is readable, and its lane and bits on the port
are that byte's. -/
theorem byteLanesOnThePort : Obligations.ByteLanesOnThePort := by
  intro s hinv
  refine ⟨ports_rspData_length s, ports_rspLen s, fun i j hi hj => ?_, fun k => dataBit_beyond⟩
  obtain ⟨b, hb⟩ := hinv.exists_readByte hi
  have hlane : dataLane s i = some b := dataLane_of_readByte hb
  refine ⟨b, hb, ?_, ?_⟩
  · rw [ports_rspData_getElem? (hi.trans_le hinv.olenLe), hlane]
  · rw [dataBit_of_lane s i hj, hlane, Option.map_some]

end Sys2Proof.Machine
end

section
/-! PROOF. The operands are the halves of the request word (spec/30_encoding.md R33). -/

namespace Sys2Proof.Machine

/-- Bit k of VALUE is bit k of the request word (R33). -/
theorem valueField_getLsbD {xlen k : Nat} (r : RequestWord) (hk : k < xlen) :
    (valueField xlen r).getLsbD k = r.bits.getLsbD k := by
  simp [valueField, hk]

/-- Bit k of OBC is bit XLEN+k of the request word (R33). -/
theorem obcField_getLsbD {xlen k : Nat} (r : RequestWord) (hk : k < xlen) :
    (obcField xlen r).getLsbD k = r.bits.getLsbD (xlen + k) := by
  simp [obcField, hk]

/-- At width 0 a request word is empty, so it has no bit. -/
theorem getLsbD_of_xlen_zero {r : RequestWord} (hr : r.width = requestBits 0) (k : Nat) :
    r.bits.getLsbD k = false :=
  BitVec.getLsbD_of_ge _ _ (by simp [hr, requestBits])

/-- The sign bit of VALUE is bit XLEN-1 of the request word, also at width 0, where there is none. -/
theorem valueField_getLsbD_top {xlen : Nat} {r : RequestWord} (hr : r.width = requestBits xlen) :
    (valueField xlen r).getLsbD (xlen - 1) = r.bits.getLsbD (xlen - 1) := by
  rcases Nat.eq_zero_or_pos xlen with rfl | hpos
  · rw [getLsbD_of_xlen_zero hr, BitVec.getLsbD_of_ge _ _ (Nat.zero_le _)]
  · exact valueField_getLsbD r (Nat.sub_one_lt_of_lt hpos)

/-- The sign bit of OBC is bit 2*XLEN-1 of the request word, also at width 0, where there is none. -/
theorem obcField_getLsbD_top {xlen : Nat} {r : RequestWord} (hr : r.width = requestBits xlen) :
    (obcField xlen r).getLsbD (xlen - 1) = r.bits.getLsbD (xlen + (xlen - 1)) := by
  rcases Nat.eq_zero_or_pos xlen with rfl | hpos
  · rw [getLsbD_of_xlen_zero hr, BitVec.getLsbD_of_ge _ _ (Nat.zero_le _)]
  · exact obcField_getLsbD r (Nat.sub_one_lt_of_lt hpos)

/-- Settles O3: the operands are the word's two fields, and `sint` of each asks its sign bit, which is
the top bit of its half of the word. -/
theorem operandsAreTheHalves : Obligations.OperandsAreTheHalves := by
  intro c bits
  have hword : IsRequestWord c ⟨requestBits c.xlen, bits⟩ := rfl
  refine ⟨_, _, decode_request hword,
    fun k hk => ⟨valueField_getLsbD _ hk, obcField_getLsbD _ hk⟩, ?_, ?_⟩
  · rw [sint, valueField_getLsbD_top hword]
  · rw [sint, obcField_getLsbD_top hword]

end Sys2Proof.Machine
end

section
/-! PROOF. Acceptance (spec/40_encode.md R46). -/

namespace Sys2Proof.Machine

theorem ports_reqReady_iff (s : State) :
    (ports s).reqReady = true ↔ s.fault = false ∧ s.rsp = none := by
  simp [ports]

/-- A request presented with FAULT = 1 is not accepted, whatever the word (R46, U8). -/
theorem presentRequest_faulted {s : State} (word : RequestWord) (rest : List HostAct)
    (hf : s.fault = true) : presentRequest word rest s = .fault .stuck :=
  if_pos hf

/-- `exec` of the ENCODE that an accepted request word decodes to (R34, R46). -/
theorem exec_requestWord {s : State} (word : RequestWord) (rest : List HostAct)
    (hf : s.fault = false) :
    exec (.encode s.cfg.xlen (valueField s.cfg.xlen word) (obcField s.cfg.xlen word))
        { s with script := rest } =
      .next (afterResponse { s with script := rest } (requestResponse s.cfg word)) :=
  exec_encode_eq (s := { s with script := rest }) _ _ rfl hf

/-- Settles O37: with FAULT = 1 `presentRequest` stops; otherwise the step and `exec` of the decoded word
answer one and the same state, `afterResponse` of the response function. -/
theorem acceptanceRule : Obligations.AcceptanceRule := by
  intro s hw
  refine ⟨ports_reqReady_iff s, fun word rest hs hf => ?_, fun word rest hs hf hr hl => ?_⟩
  · rw [step_request hw hs, presentRequest_faulted word rest hf]
  · exact ⟨_, _, decode_request hl, exec_requestWord word rest hf, step_accepts ⟨hw, hf, hr⟩ hs hl⟩

end Sys2Proof.Machine
end

section
/-! PROOF. Every accepted request is answered, with one response of one of two kinds
(spec/40_encode.md R47). -/

namespace Sys2Proof.Machine

@[simp] theorem afterResponse_delivered (s : State) (r : Response) :
    (afterResponse s r).delivered = s.delivered := by
  cases r <;> rfl

/-- A request answered where no response waits adds exactly its response to the run's (R47). -/
theorem afterResponse_responses {s : State} (r : Response) (hr : s.rsp = none) :
    (afterResponse s r).responses = s.responses ++ [r] := by
  simp [State.responses, hr]

theorem ports_of_rsp {s : State} {r : Response} (h : s.rsp = some r) :
    (ports s).rspValid = true ∧ (ports s).rspOk = some (responseOk r) ∧
      (ports s).rspCause = some (responseCause r) := by
  simp [ports, h]

/-- After an OK of at most NMAX bytes, the lanes of `rsp_data` from 0 up are its bytes (R22, R47). -/
theorem afterResponse_ok_rspData {s : State} {bytes : List Byte} (hn : bytes.length ≤ s.cfg.nmax)
    {i : Nat} (hi : i < bytes.length) :
    (ports (afterResponse s (.ok bytes))).rspData[i]? = some (some bytes[i]) := by
  have hread : readByte (afterResponse s (.ok bytes)) i = .ok bytes[i] :=
    readByte_cells (s := afterResponse s (.ok bytes)) rfl rfl hn hi
  have hlane : i < (afterResponse s (.ok bytes)).cfg.nmax := hi.trans_le hn
  rw [ports_rspData_getElem? hlane, dataLane_of_readByte hread]

/-- An OK response has obc bytes (R63). -/
theorem response_ok_length {nmax : Nat} {v n : Int} {bytes : List Byte}
    (h : response nmax v n = .ok bytes) : (bytes.length : Int) = n := by
  obtain ⟨⟨-, hreq, -⟩, rfl⟩ := response_ok_cases h
  rw [packBytes_length]
  omega

/-- The bytes of an OK response fit the buffer (R60). -/
theorem response_ok_length_le {nmax : Nat} {v n : Int} {bytes : List Byte}
    (h : response nmax v n = .ok bytes) : bytes.length ≤ nmax := by
  obtain ⟨⟨-, -, hcap⟩, -⟩ := response_ok_cases h
  have hlen := response_ok_length h
  omega

/-- A FAULT response names a failed check (R47, R72). -/
theorem response_fault_ne_none {nmax : Nat} {v n : Int} {c : Cause}
    (h : response nmax v n = .fault c) : c ≠ .none := by
  rcases response_fault_cases h with ⟨rfl, _⟩ | ⟨rfl, _⟩ | ⟨rfl, _⟩ | ⟨rfl, _⟩ <;> decide

/-- Settles O38: the step leaves `afterResponse` of the response function's response, whose kind decides
what the ports show. -/
theorem acceptedRequestIsAnswered : Obligations.AcceptedRequestIsAnswered := by
  intro s word rest ha hs hl
  obtain ⟨hvalid, hok, hcause⟩ :=
    ports_of_rsp (afterResponse_rsp { s with script := rest } (requestResponse s.cfg word))
  refine ⟨_, _, step_accepts ha hs hl, afterResponse_responses _ ha.2.2, hvalid, ?_⟩
  generalize hresp : requestResponse s.cfg word = r at hok hcause ⊢
  cases r with
  | ok bytes =>
    exact .inl ⟨bytes, rfl, response_ok_length hresp, hok, hcause, rfl,
      fun i hi => afterResponse_ok_rspData (response_ok_length_le hresp) hi⟩
  | fault c =>
    exact .inr ⟨c, rfl, response_fault_ne_none hresp, hok, hcause, rfl⟩

end Sys2Proof.Machine
end

section
/-! PROOF. The faults of checks 1 and 2, ZERO_WIDTH and NEGATIVE_VALUE (spec/41_input_validator.md R48, R49;
spec/60_exceptions.md R73, R74). -/

namespace Sys2Proof.Machine

/-- The state fault entry leaves is `raiseFault`'s (R77). -/
theorem faultEntered_iff {c : Cause} {s t : State} : FaultEntered c s t ↔ t = raiseFault c s := Iff.rfl

/-- With FAULT = 0, ENCODE enters a fault exactly when the response function answers with it (R41, R77):
the response presented tells the two kinds and the causes apart. -/
theorem entersFault_iff_response {s : State} {c : Cause} (v n : BitVec s.cfg.xlen)
    (hf : s.fault = false) :
    EntersFault c (.encode s.cfg.xlen v n) s ↔
      response s.cfg.nmax (sint v) (sint n) = .fault c := by
  have hexec := exec_encode_eq v n rfl hf
  constructor
  · rintro ⟨t, ht, hentered⟩
    obtain rfl := Host.Outcome.next.inj (hexec.symm.trans ht)
    have hrsp := congrArg State.rsp (faultEntered_iff.1 hentered)
    rw [afterResponse_rsp, raiseFault_rsp] at hrsp
    exact Option.some.inj hrsp
  · intro hresp
    rw [hresp] at hexec
    exact ⟨raiseFault c s, hexec, faultEntered_iff.2 rfl⟩

/-- Check 1 is the first, so obc alone decides whether it is the one that fails (R48, R73). -/
theorem response_eq_zeroWidth_iff {nmax : Nat} {v n : Int} :
    response nmax v n = .fault .zeroWidth ↔ n ≤ 0 := by
  constructor
  · intro h
    rcases response_fault_cases h with ⟨-, hn⟩ | ⟨hc, -⟩ | ⟨hc, -⟩ | ⟨hc, -⟩
    · exact hn
    all_goals cases hc
  · exact fun hn => if_pos hn

/-- Check 2 is reached only where check 1 passes, and it tests the sign of the value (R49, R74). -/
theorem response_eq_negativeValue_iff {nmax : Nat} {v n : Int} :
    response nmax v n = .fault .negativeValue ↔ 0 < n ∧ v < 0 := by
  constructor
  · intro h
    rcases response_fault_cases h with ⟨hc, -⟩ | ⟨-, hcheck⟩ | ⟨hc, -⟩ | ⟨hc, -⟩
    case inr.inl => exact hcheck
    all_goals cases hc
  · rintro ⟨hn, hv⟩
    rw [response, if_neg (not_le.2 hn), if_pos hv]

/-- Settles O23: the fault entered is the response function's, whose first test is obc ≤ 0. -/
theorem zeroWidthFault : Obligations.ZeroWidthFault := by
  intro s v n hf
  rw [entersFault_iff_response v n hf, response_eq_zeroWidth_iff]

/-- Settles O24: the fault entered is the response function's, whose second test is value < 0, the sign
bit of VALUE. -/
theorem negativeValueFault : Obligations.NegativeValueFault := by
  intro s v n hf
  rw [entersFault_iff_response v n hf, response_eq_negativeValue_iff]
  exact ⟨Iff.rfl, sint_neg_iff v⟩

end Sys2Proof.Machine
end

section
/-! PROOF. The leading-zero count and the required byte count (spec/42_leading_zero_counter.md R52, R54). -/

namespace Sys2Proof.Machine

variable {w : Nat}

theorem clz_le (v : BitVec w) : clz v ≤ w := (zerosBelow_spec v w).1

/-- The bits `clz` counts are 0. -/
theorem getLsbD_eq_false_of_width_sub_clz_le (v : BitVec w) {k : Nat} (hk : w - clz v ≤ k)
    (hkw : k < w) : v.getLsbD k = false :=
  (zerosBelow_spec v w).2.1 k hk hkw

/-- The bit at which `clz` stops is 1. -/
theorem getLsbD_below_clz (v : BitVec w) (h : clz v < w) : v.getLsbD (w - 1 - clz v) = true :=
  (zerosBelow_spec v w).2.2 h

/-- Nothing is counted exactly when there is no bit or the top bit is 1. -/
theorem clz_eq_zero_iff (v : BitVec w) : clz v = 0 ↔ w = 0 ∨ v.getLsbD (w - 1) = true := by
  constructor
  · intro h
    refine (Nat.eq_zero_or_pos w).imp_right fun hw => ?_
    simpa [h] using getLsbD_below_clz v (by omega)
  · rintro (rfl | htop)
    · exact Nat.le_zero.1 (clz_le v)
    · by_contra hc
      have hw : w - 1 < w := BitVec.lt_of_getLsbD htop
      have hzero := getLsbD_eq_false_of_width_sub_clz_le v (k := w - 1) (by omega) hw
      exact Bool.false_ne_true (hzero.symm.trans htop)

/-- Every bit is counted where every bit is 0: a bit at which the count stopped would be 1. -/
theorem clz_eq_width {v : BitVec w} (h : ∀ k < w, v.getLsbD k = false) : clz v = w := by
  by_contra hc
  have hlt : clz v < w := lt_of_le_of_ne (clz_le v) hc
  have hzero := h (w - 1 - clz v) (by omega)
  exact Bool.false_ne_true (hzero.symm.trans (getLsbD_below_clz v hlt))

/-- After the validator the top bit is 0, so it is counted (R50). -/
theorem one_le_clz {v : BitVec w} (hw : 0 < w) (hv : 0 ≤ sint v) : 1 ≤ clz v := by
  have htop : v.getLsbD (w - 1) = false := (sint_nonneg hv).1
  have hne : clz v ≠ 0 := by simp [clz_eq_zero_iff, htop, hw.ne']
  omega

/-- Settles O9: the counted run, the bit that ends it, and what the top bit says of the count. -/
theorem leadingZeroCount : Obligations.LeadingZeroCount := fun _ v =>
  ⟨clz_le v, fun _ => getLsbD_eq_false_of_width_sub_clz_le v, getLsbD_below_clz v,
    fun htop => (clz_eq_zero_iff v).2 (.inr htop), clz_eq_width, one_le_clz⟩

/-- `(b + 7) / 8` in integer logic is the ceiling of the rational b / 8 (R54): both have the same upper
bounds, the k with b ≤ 8k. -/
theorem ceil_div_eight (b : Nat) : ⌈(b : ℚ) / 8⌉₊ = (b + 7) / 8 := by
  refine eq_of_forall_ge_iff fun k => ?_
  calc ⌈(b : ℚ) / 8⌉₊ ≤ k ↔ (b : ℚ) ≤ k * 8 := by rw [Nat.ceil_le, div_le_iff₀ (by norm_num)]
    _ ↔ b ≤ k * 8 := by norm_cast
    _ ↔ (b + 7) / 8 ≤ k := by omega

/-- Settles O11: the ceiling in integer logic, the least k by `reqbytes_le_iff`, and the stage's REQB,
which is that of the unsigned value. -/
theorem requiredBytesIsLeast : Obligations.RequiredBytesIsLeast := by
  refine ⟨fun n => ?_, reqbytes_le_iff, fun w v hv => ?_⟩
  · rw [ceil_div_eight, reqbytes]
  · rw [requiredBytes_eq, sint_toNat hv]

end Sys2Proof.Machine
end

section
/-! PROOF. The faults of checks 3 and 4, INSUFFICIENT_WIDTH and CAPACITY (spec/43_byte_width_checker.md R59,
R60; spec/60_exceptions.md R75, R76). -/

namespace Sys2Proof.Machine

/-- Check 3 is reached only where checks 1 and 2 pass, and it compares obc with REQB (R59, R75). -/
theorem response_eq_insufficientWidth_iff {nmax : Nat} {v n : Int} :
    response nmax v n = .fault .insufficientWidth ↔ 0 < n ∧ 0 ≤ v ∧ n < reqbytes v.toNat := by
  constructor
  · intro h
    rcases response_fault_cases h with ⟨hc, -⟩ | ⟨hc, -⟩ | ⟨-, hcheck⟩ | ⟨hc, -⟩
    case inr.inr.inl => exact hcheck
    all_goals cases hc
  · rintro ⟨hn, hv, hreq⟩
    rw [response, if_neg (not_le.2 hn), if_neg (not_lt.2 hv), if_pos hreq]

/-- Check 4 is reached only where checks 1 to 3 pass, and it compares obc with NMAX; REQB ≥ 1 makes
obc > 0 a consequence of check 3 (R60, R76). -/
theorem response_eq_capacity_iff {nmax : Nat} {v n : Int} :
    response nmax v n = .fault .capacity ↔
      0 < n ∧ 0 ≤ v ∧ (reqbytes v.toNat : Int) ≤ n ∧ (nmax : Int) < n := by
  constructor
  · intro h
    rcases response_fault_cases h with ⟨hc, -⟩ | ⟨hc, -⟩ | ⟨hc, -⟩ | ⟨-, hv, hreq, hcap⟩
    case inr.inr.inr =>
      have hone := one_le_reqbytes v.toNat
      exact ⟨by omega, hv, hreq, hcap⟩
    all_goals cases hc
  · rintro ⟨hn, hv, hreq, hcap⟩
    rw [response, if_neg (not_le.2 hn), if_neg (not_lt.2 hv), if_neg (not_lt.2 hreq), if_pos hcap]

/-- A positive width is below REQB exactly when the value does not fit in that many bytes (R59). -/
theorem lt_reqbytes_iff {v n : Int} (hn : 0 < n) (hv : 0 ≤ v) :
    n < reqbytes v.toNat ↔ 256 ^ n.toNat ≤ v := by
  lift n to ℕ using hn.le
  lift v to ℕ using hv
  rw [Int.toNat_natCast, Int.toNat_natCast]
  norm_cast
  rw [← not_le, reqbytes_le_iff v n (by omega), not_lt]

/-- No operand of XLEN bits is above 2^(XLEN-1) - 1 (R2). -/
theorem sint_lt_half {w : Nat} (v : BitVec w) : sint v < (2 ^ (w - 1) : Nat) := by
  rcases lt_or_ge (sint v) 0 with hneg | hv
  · exact hneg.trans_le (Int.natCast_nonneg _)
  · rw [(sint_nonneg hv).2]
    exact Int.ofNat_lt.2 (toNat_lt_half hv)

/-- Settles O25: the fault entered is the response function's, whose third test is obc < REQB, and REQB
is the least width that holds the value. -/
theorem insufficientWidthFault : Obligations.InsufficientWidthFault := by
  intro s v n hf
  rw [entersFault_iff_response v n hf, response_eq_insufficientWidth_iff]
  exact ⟨Iff.rfl, and_congr_right fun hn => and_congr_right fun hv => lt_reqbytes_iff hn hv⟩

/-- Settles O26: the fault entered is the response function's, whose fourth test is obc > NMAX; an obc
above the largest NMAX has no XLEN-bit pattern. -/
theorem capacityFault : Obligations.CapacityFault := by
  intro s v n hf
  rw [entersFault_iff_response v n hf, response_eq_capacity_iff]
  refine ⟨Iff.rfl, fun _ hmax ⟨_, _, _, hcap⟩ => ?_⟩
  have hlt := sint_lt_half n
  omega

end Sys2Proof.Machine
end

section
/-! PROOF. ENCODE delivers the bytes of the value (spec/44_byte_packer.md R63, R64). -/

namespace Sys2Proof.Machine

/-- The response function answers OK exactly to operands that pass the checks, with the packer's bytes
(R41, R64). -/
theorem response_eq_ok_iff {nmax : Nat} {v n : Int} {bs : List Byte} :
    response nmax v n = .ok bs ↔ PassesChecks nmax v n ∧ bs = packBytes v.toNat n.toNat := by
  refine ⟨response_ok_cases, ?_⟩
  rintro ⟨⟨hv, hreq, hcap⟩, rfl⟩
  have hone := one_le_reqbytes v.toNat
  rw [response, if_neg (by omega), if_neg (not_lt.2 hv), if_neg (not_lt.2 hreq), if_neg (not_lt.2 hcap)]
  simp [packBytes, resultByte, Nat.shiftRight_eq_div_pow]

/-- Byte i of the result is (value >> 8(obc-1-i)) mod 256 as an integer, for an integer value (R64). -/
theorem packBytes_getElem_toInt {v : Int} (hv : 0 ≤ v) {n i : Nat}
    (h : i < (packBytes v.toNat n).length) :
    (((packBytes v.toNat n)[i].toNat : Nat) : Int) = v / 2 ^ (8 * (n - 1 - i)) % 256 := by
  lift v to ℕ using hv
  rw [packBytes_getElem, resultByte_toNat, show 256 = 2 ^ 8 from rfl, ← pow_mul]
  push_cast
  rfl

/-- Settles O20: the operands pass the checks, so the response function answers OK with the packer's
bytes, and the state it leaves holds exactly these bytes. -/
theorem encodeDeliversTheBytes : Obligations.EncodeDeliversTheBytes := by
  intro s v n hf hv hreq hcap
  have hresp := response_eq_ok_iff.2 ⟨⟨hv, hreq, hcap⟩, rfl⟩
  have hexec := exec_encode_eq v n rfl hf
  rw [hresp] at hexec
  have hlen := response_ok_length hresp
  refine ⟨_, _, hexec, afterResponse_rsp _ _, hlen, hlen, rfl, rfl, fun i hi => ⟨?_, ?_⟩⟩
  · exact readByte_cells (s := afterResponse s (.ok _)) rfl rfl (response_ok_length_le hresp) hi
  · rw [packBytes_length]
    exact packBytes_getElem_toInt hv hi

end Sys2Proof.Machine
end

section
/-! PROOF. Fault entry, the order of the checks, and the way out of a fault (spec/60_exceptions.md R77, R78,
R80). -/

namespace Sys2Proof.Machine

/-- The first failing check and the FAULT response of the response function name the same cause (R41, R78). -/
theorem failedCheck_some_iff {w nmax : Nat} {v n : BitVec w} {c : Cause} :
    failedCheck nmax v n = some c ↔ response nmax (sint v) (sint n) = .fault c := by
  rw [response_of_failedCheck]
  cases failedCheck nmax v n <;> simp

/-- From FAULT = 0, only a FAULT response sets FAULT (R77). -/
theorem afterResponse_fault_iff {s : State} {r : Response} (hf : s.fault = false) :
    (afterResponse s r).fault = true ↔ ∃ c, r = .fault c := by
  cases r with
  | ok bytes => simp [afterResponse, hf]
  | fault c => simp [afterResponse]

/-- No byte of OBUF is defined while OLEN = 0 (R9). -/
theorem readByte_ne_ok_of_olen_zero {s : State} (h : s.olen = 0) (i : Nat) (b : Byte) :
    readByte s i ≠ .ok b := by
  rw [readByte_beyond (h.trans_le (Nat.zero_le i))]
  exact nofun

/-- With FAULT = 1 no ENCODE of the block's width is executed (R46). -/
theorem exec_encode_faulted {s : State} (v n : BitVec s.cfg.xlen) (hf : s.fault = true) :
    exec (.encode s.cfg.xlen v n) s = .fault .stuck := by
  simp [exec, execEncode, hf]

/-- Settles O28: `exec` leaves `afterResponse` of the response function's response. A failing check makes it
`raiseFault`'s state, and FAULT = 1 in it means that the response was a FAULT. -/
theorem faultEntryIsTheWholeEffect : Obligations.FaultEntryIsTheWholeEffect := by
  intro s v n hf
  have hexec := exec_encode_eq v n rfl hf
  refine ⟨fun c hc => ?_, fun t ht hfault => ?_⟩
  · have hresp := failedCheck_some_iff.1 hc
    rw [hresp] at hexec
    obtain ⟨hvalid, hok, hcause⟩ := ports_of_rsp (raiseFault_rsp s c)
    exact ⟨raiseFault c s, hexec, response_fault_ne_none hresp, rfl, rfl, rfl, rfl,
      readByte_ne_ok_of_olen_zero rfl, rfl, rfl, hvalid, hok, hcause, rfl, rfl, rfl, rfl⟩
  · obtain rfl := Host.Outcome.next.inj (hexec.symm.trans ht)
    obtain ⟨c, hresp⟩ := (afterResponse_fault_iff hf).1 hfault
    exact ⟨c, failedCheck_some_iff.2 hresp⟩

/-- In a legal build the buffer has room for the bytes any non-negative operand needs (R3, R56). -/
theorem reqbytes_le_nmax {c : Config} (hc : c.Legal) {v : BitVec c.xlen} (hv : 0 ≤ sint v) :
    reqbytes (sint v).toNat ≤ c.nmax := by
  obtain ⟨h8, hw, hcap, -⟩ := hc
  rw [sint_toNat hv]
  exact (reqbytes_le_width h8 hw).trans hcap

/-- Settles O29: the fault entered is the response function's, one response whose tests stand in the order
1, 2, 3, 4; checks 3 and 4 exclude each other because REQB ≤ NMAX. -/
theorem checkOrderDecides : Obligations.CheckOrderDecides := by
  intro s v n hlegal hf
  have henters {c : Cause} := entersFault_iff_response (c := c) v n hf
  refine ⟨fun hn _ => ?zeroWidth, fun hn _ _ => ?zeroWidth', fun hn hv => ?negativeValue,
    fun hn hv hreq => ?insufficientWidth, fun hn hv hreq hcap => ?capacity,
    fun hv ⟨hreq, hcap⟩ => ?notBoth, fun c d hc hd => ?oneFault, fun c t v' n' ht => ?stuck⟩
  case zeroWidth | zeroWidth' => exact henters.2 (response_eq_zeroWidth_iff.2 hn)
  case negativeValue => exact henters.2 (response_eq_negativeValue_iff.2 ⟨hn, hv⟩)
  case insufficientWidth => exact henters.2 (response_eq_insufficientWidth_iff.2 ⟨hn, hv, hreq⟩)
  case capacity => exact henters.2 (response_eq_capacity_iff.2 ⟨hn, hv, hreq, hcap⟩)
  case notBoth =>
    have hroom := reqbytes_le_nmax hlegal hv
    omega
  case oneFault => exact Response.fault.inj ((henters.1 hc).symm.trans (henters.1 hd))
  case stuck =>
    obtain rfl := faultEntered_iff.1 ht
    exact exec_encode_faulted v' n' rfl

/-- A step from FAULT = 1 that is no reset takes or samples the response, and leaves FAULT as it was
(R25, R81). -/
theorem step_next_faulted {s t : State} (hf : s.fault = true) (h : step s = .next t) :
    (∃ rest, s.script = .reset :: rest ∧ t = applyReset { s with script := rest }) ∨
      t.fault = true := by
  obtain hreset | ⟨-, ⟨hready, -⟩ | ⟨_, _, -, hready, -⟩ | ⟨_, -, rfl⟩ | ⟨_, _, -, -, rfl⟩⟩ := step_next h
  · exact .inl hreset
  · exact absurd hready (by simp [hf])
  · exact absurd hready (by simp [hf])
  · exact .inr hf
  · exact .inr hf

/-- Settles O47: every step from FAULT = 1 but reset keeps FAULT, and reset puts CAUSE at NONE. -/
theorem onlyResetClearsFault : Obligations.OnlyResetClearsFault := by
  intro s t hf hstep hcleared
  obtain ⟨rest, hscript, rfl⟩ | hkept := step_next_faulted hf hstep
  · exact ⟨by rw [hscript]; rfl, rfl⟩
  · exact absurd hkept (by simp [hcleared])

end Sys2Proof.Machine
end

section
/-! PROOF. Reset (spec/70_reset_and_hazards.md R90, R91). -/

namespace Sys2Proof.Machine

/-- Reset is applied in every state, also one that was never reset, has a fault, or has a request in
flight (R89). -/
theorem step_reset {s : State} {rest : List HostAct} (hs : s.script = .reset :: rest) :
    step s = .next (applyReset { s with script := rest }) := by
  rw [step, hs]
  rfl

/-- Reset forgets everything but the build and the acts to come (R90). -/
theorem applyReset_congr {s₁ s₂ : State} (hcfg : s₁.cfg = s₂.cfg) (hscript : s₁.script = s₂.script) :
    applyReset s₁ = applyReset s₂ := by
  rw [applyReset, applyReset, hcfg, hscript]

/-- While FAULT = 0 and no response waits, the block is ready for a request and presents none (R18, R46). -/
theorem ports_idle {s : State} (hf : s.fault = false) (hr : s.rsp = none) :
    (ports s).reqReady = true ∧ (ports s).rspValid = false :=
  ⟨(ports_reqReady_iff s).2 ⟨hf, hr⟩, congrArg Option.isSome hr⟩

@[simp] theorem afterResponse_cfg (s : State) (r : Response) : (afterResponse s r).cfg = s.cfg := by
  cases r <;> rfl

@[simp] theorem afterResponse_script (s : State) (r : Response) :
    (afterResponse s r).script = s.script := by
  cases r <;> rfl

/-- Settles O43: the step is `applyReset`, whose fields are those of `State.reset` but for the build and
the script, and these two are all it reads. -/
theorem resetLeaves : Obligations.ResetLeaves := by
  refine ⟨fun s rest hs => ?_, fun s₁ s₂ hcfg hscript hhead => ?_⟩
  · obtain ⟨hready, hvalid⟩ := ports_idle (s := applyReset { s with script := rest }) rfl rfl
    exact ⟨_, step_reset hs, rfl, rfl, rfl, readByte_ne_ok_of_olen_zero rfl, rfl, rfl, rfl,
      hready, hvalid, rfl, rfl⟩
  · obtain ⟨rest, hs₂⟩ := List.head?_eq_some_iff.1 (hscript ▸ hhead)
    rw [step_reset (hscript.trans hs₂), step_reset hs₂]
    exact congrArg _ (applyReset_congr hcfg rfl)

/-- Settles O44: acceptance leaves the response waiting and keeps the build and the script, and the reset
that follows keeps only these two. -/
theorem resetDiscardsTheRequestInFlight : Obligations.ResetDiscardsTheRequestInFlight := by
  intro s word rest ha hs hl
  have haccept := step_accepts ha hs hl
  have hreset := step_reset (afterResponse_script { s with script := .reset :: rest }
    (requestResponse s.cfg word))
  rw [runSteps_succ haccept, runSteps_succ hreset]
  exact congrArg Host.Outcome.next
    (applyReset_congr (s₂ := { s with script := rest }) (afterResponse_cfg _ _) rfl)

end Sys2Proof.Machine
end

section
/-! PROOF. The request word and the textual form of a request (spec/30_encoding.md R32 to R37). -/

namespace Sys2Proof.Machine

/-- The fields of the request word of two operands are the operands (R33). -/
theorem fields_encode {xlen : Nat} (v n : BitVec xlen) :
    valueField xlen (encode (.encode xlen v n)) = v ∧ obcField xlen (encode (.encode xlen v n)) = n :=
  ⟨BitVec.extractLsb'_append_eq_right, BitVec.extractLsb'_append_eq_left⟩

/-- A request word is the word of its two fields: they share no bit and leave none out (R32, R33). -/
theorem encode_fields {c : Config} {word : RequestWord} (h : IsRequestWord c word) :
    encode (.encode c.xlen (valueField c.xlen word) (obcField c.xlen word)) = word := by
  obtain ⟨width, bits⟩ := word
  obtain rfl : width = requestBits c.xlen := h
  exact congrArg (RequestWord.mk _) BitVec.extractLsb'_append_extractLsb'

/-- Only a request word decodes, and to its two fields (R34, R36). -/
theorem decode_eq_ok_iff {c : Config} {word : RequestWord} {i : Instr} :
    decode c word = .ok i ↔
      IsRequestWord c word ∧ i = .encode c.xlen (valueField c.xlen word) (obcField c.xlen word) := by
  by_cases h : IsRequestWord c word
  · simp [decode_request h, h, eq_comm]
  · simp [decode_other h, h]

/-- Settles O1: the word has the block's length, and its fields are the operands. -/
theorem decodeOfEncode : Obligations.DecodeOfEncode := by
  intro c i hwf
  cases i with
  | encode xlen v n =>
    obtain rfl : xlen = c.xlen := by simpa [WellFormed] using hwf
    have hword : IsRequestWord c (encode (.encode c.xlen v n)) := Laws.RequestLength.encode _ v n c hwf
    obtain ⟨hvalue, hobc⟩ := fields_encode v n
    rw [decode_request hword, hvalue, hobc]

/-- Settles O2: a word that decodes is a request word, and that is the word of its fields. -/
theorem encodeOfDecode : Obligations.EncodeOfDecode := by
  intro c word i h
  obtain ⟨hword, rfl⟩ := decode_eq_ok_iff.1 h
  exact ⟨by simp [WellFormed], encode_fields hword⟩

/-- Settles O4: an accepting block hands the string to the decoder, which answers `wrongLength`. -/
theorem otherLengthsRefused : Obligations.OtherLengthsRefused := by
  intro s word hlength
  have hdecode : decode s.cfg word = .error .wrongLength := decode_other hlength
  refine ⟨hdecode, fun rest ⟨hreset, hf, hr⟩ hs => ?_⟩
  rw [step_request hreset hs]
  simp [presentRequest, hf, hr, hdecode]

/-- Settles O5: each word has the configuration's length, and its halves are the operands. -/
theorem sampleWordsDecode : Obligations.SampleWordsDecode := by
  refine ⟨?_, ?_, ?_, ?_⟩ <;> decide

/-- A representable number is the two's complement value of its XLEN-bit pattern (R2, R37). -/
theorem sint_ofInt {xlen : Nat} {n : Int} (hpos : 0 < xlen) (h : Representable xlen n) :
    sint (BitVec.ofInt xlen n) = n := by
  rw [sint_eq_toInt]
  exact BitVec.toInt_ofInt_eq_self hpos h.1 (Int.le_sub_one_iff.1 h.2)

/-- Settles O6: the assembler takes the patterns of V and N, whose values are V and N because both are
in range. -/
theorem assemblerIsExact : Obligations.AssemblerIsExact := by
  rintro c V N ⟨-, hwidth, -⟩
  have hpos : 0 < c.xlen := by omega
  exact ⟨fun h => ⟨_, _, if_pos h, sint_ofInt hpos h.1, sint_ofInt hpos h.2⟩, fun h => if_neg h⟩

/-- Settles O7, by running the assembler on the texts. -/
theorem textualFormSamples : Obligations.TextualFormSamples := by
  refine ⟨?_, ?_, ?_, ?_, ?_⟩ <;> decide

end Sys2Proof.Machine
end

section
/-! PROOF. What every step keeps: the invariant and the history of responses (spec/10_state.md R7 to R10,
spec/60_exceptions.md R81, spec/70_reset_and_hazards.md R98). -/

namespace Sys2Proof.Machine

/-- `step_next` as a principle: what holds of every state a step can leave holds of the one it leaves. -/
theorem step_next_elim {s t : State} {P : State → Prop} (h : step s = .next t)
    (reset : ∀ rest, s.script = .reset :: rest → P (applyReset { s with script := rest }))
    (waits : s.fault = false → P s)
    (accepts : ∀ word rest, s.script = .request word :: rest → s.fault = false → s.rsp = none →
      P (afterResponse { s with script := rest } (requestResponse s.cfg word)))
    (takes : ∀ rest, s.script = .take :: rest → P (deliver { s with script := rest }))
    (samples : ∀ rest, s.script = .readResponse :: rest → P { s with script := rest }) : P t := by
  obtain ⟨rest, hs, rfl⟩ | ⟨-, ⟨hf, rfl, -⟩ | ⟨word, rest, hs, hf, hr, -, rfl⟩ |
    ⟨rest, hs, rfl⟩ | ⟨rest, -, hs, -, rfl⟩⟩ := step_next h
  · exact reset rest hs
  · exact waits hf
  · exact accepts word rest hs hf hr
  · exact takes rest hs
  · exact samples rest hs

/-! ### The invariant -/

/-- The invariant of a block with FAULT = 0 and no byte defined, as reset leaves it. -/
theorem inv_applyReset {s : State} (hlegal : s.cfg.Legal) : (applyReset s).Inv where
  wasReset := rfl
  legal := hlegal
  causeIff := ⟨fun _ => rfl, fun _ => rfl⟩
  withdrawn := fun _ => rfl
  olenLe := Nat.zero_le _
  domain := rfl
  okShown := nofun
  faultShown := nofun

/-- Settles O50: `State.reset` is what reset leaves of itself. -/
theorem resetMeetsInvariant : Obligations.ResetMeetsInvariant :=
  inv_applyReset (s := State.reset) (by decide)

/-- The invariant does not speak of the host's acts. -/
theorem State.Inv.with_script {s : State} (h : s.Inv) (rest : List HostAct) :
    State.Inv { s with script := rest } := by
  obtain ⟨hreset, hlegal, hcause, hwithdrawn, holen, hdomain, hok, hfault⟩ := h
  exact ⟨hreset, hlegal, hcause, hwithdrawn, holen, hdomain, hok, hfault⟩

/-- Delivery empties the channel and keeps the rest of the invariant (R25). -/
theorem State.Inv.deliver {s : State} (h : s.Inv) : (deliver s).Inv where
  wasReset := h.wasReset
  legal := h.legal
  causeIff := h.causeIff
  withdrawn := h.withdrawn
  olenLe := h.olenLe
  domain := h.domain
  okShown := nofun
  faultShown := nofun

/-- An OK response of at least one and at most NMAX bytes keeps the invariant (R63, R64). -/
theorem State.Inv.afterResponse_ok {s : State} (h : s.Inv) (hf : s.fault = false) {bytes : List Byte}
    (hne : bytes ≠ []) (hn : bytes.length ≤ s.cfg.nmax) : (afterResponse s (.ok bytes)).Inv where
  wasReset := h.wasReset
  legal := h.legal
  causeIff := h.causeIff
  withdrawn := fun hfault => absurd (hf.symm.trans hfault) Bool.false_ne_true
  olenLe := hn
  domain := (cellsFrom_fst 0 bytes).trans List.range_eq_range'.symm
  okShown := by
    rintro shown ⟨⟩
    exact ⟨hf, (cellsFrom_snd 0 bytes).symm, hne⟩
  faultShown := nofun

/-- Fault entry with a cause other than NONE keeps the invariant (R77). -/
theorem State.Inv.raiseFault {s : State} (h : s.Inv) {c : Cause} (hc : c ≠ .none) :
    (raiseFault c s).Inv where
  wasReset := h.wasReset
  legal := h.legal
  causeIff := ⟨fun hnone => absurd hnone hc, nofun⟩
  withdrawn := fun _ => rfl
  olenLe := Nat.zero_le _
  domain := rfl
  okShown := nofun
  faultShown := by
    rintro d ⟨⟩
    exact ⟨rfl, rfl⟩

/-- The bytes of an OK response are at least one (R63). -/
theorem response_ok_ne_nil {nmax : Nat} {v n : Int} {bytes : List Byte}
    (h : response nmax v n = .ok bytes) : bytes ≠ [] := by
  obtain ⟨⟨-, hreq, -⟩, -⟩ := response_ok_cases h
  have hlen := response_ok_length h
  have hone := one_le_reqbytes v.toNat
  exact List.ne_nil_of_length_pos (by omega)

/-- The state a request leaves meets the invariant, whatever its operands. -/
theorem State.Inv.afterResponse {s : State} (h : s.Inv) (hf : s.fault = false) (v n : Int) :
    (afterResponse s (response s.cfg.nmax v n)).Inv := by
  cases hresp : response s.cfg.nmax v n with
  | ok bytes => exact h.afterResponse_ok hf (response_ok_ne_nil hresp) (response_ok_length_le hresp)
  | fault c => exact h.raiseFault (response_fault_ne_none hresp)

/-- Settles O51: `step_next` lists what a step can do, and each of these keeps the invariant. -/
theorem stepKeepsInvariant : Obligations.StepKeepsInvariant := by
  intro s t hinv hstep
  refine step_next_elim (P := State.Inv) hstep (reset := fun rest _ => ?reset) (waits := fun _ => hinv)
    (accepts := fun word rest _ hf _ => ?accepts) (takes := fun rest _ => ?takes)
    (samples := fun rest _ => ?samples)
  case reset => exact inv_applyReset hinv.legal
  case accepts => exact (hinv.with_script rest).afterResponse hf _ _
  case takes => exact (hinv.with_script rest).deliver
  case samples => exact hinv.with_script rest

/-- Settles O52: OBUF is `cellsFrom` of its bytes, which is canonical, and its addresses are those below
OLEN. -/
theorem invariantGivesCanonicalMemory : Obligations.InvariantGivesCanonicalMemory := by
  intro s hinv
  refine ⟨?_, fun i => ⟨?_, hinv.exists_readByte⟩, fun cell hcell => ?_⟩
  · rw [hinv.obuf_eq_cellsFrom]
    exact cellsFrom_wf 0 _
  · rintro ⟨b, hb⟩
    by_contra hi
    rw [readByte_beyond (not_lt.1 hi)] at hb
    cases hb
  · have haddr : cell.1 ∈ List.range s.olen := hinv.domain ▸ List.mem_map_of_mem hcell
    exact (List.mem_range.1 haddr).trans_le hinv.olenLe

/-- Settles O57: `ready` and `valid` are the two tests, and FAULT = 1 forces OLEN = 0. -/
theorem validImpliesReady : Obligations.ValidImpliesReady := by
  intro s hinv
  have hready : ready s = true ↔ s.fault = false := by simp [ready]
  have hvalid : valid s = true ↔ s.olen ≠ 0 := by simp [valid]
  refine ⟨hready, hvalid, hinv.withdrawn, fun h => hready.2 ?_⟩
  by_contra hf
  exact hvalid.1 h (hinv.withdrawn (by simpa using hf))

/-- Settles O49: the fields of `State.reset`, and the constraints on 64 and 16. -/
theorem resetStateAsSpecified : Obligations.ResetStateAsSpecified :=
  ⟨rfl, rfl, rfl, rfl, rfl, by decide, rfl, rfl⟩

/-! ### The history of responses -/

@[simp] theorem deliver_responses (s : State) : (deliver s).responses = s.responses := by
  simp [State.responses]

/-- The history agrees in a block that has neither a fault nor a response, as reset leaves it. -/
theorem historyAgrees_applyReset (s : State) : (applyReset s).HistoryAgrees :=
  ⟨fun _ => nofun, nofun⟩

/-- Delivery moves a response within the history and changes neither FAULT nor CAUSE (R25). -/
theorem State.HistoryAgrees.deliver {s : State} (h : s.HistoryAgrees) : (deliver s).HistoryAgrees := by
  rw [State.HistoryAgrees, deliver_responses]
  exact h

/-- An OK response after OKs leaves OKs. -/
theorem AllOk.append_ok {rs : List Response} (h : AllOk rs) (bytes : List Byte) :
    AllOk (rs ++ [.ok bytes]) := by
  intro r hr
  rcases List.mem_append.1 hr with hr | hr
  · exact h r hr
  · exact ⟨bytes, List.mem_singleton.1 hr⟩

/-- A request accepted adds an OK to OKs, or the one FAULT that CAUSE names (R47, R77). -/
theorem State.HistoryAgrees.afterResponse {s : State} (h : s.HistoryAgrees) (hf : s.fault = false)
    (hr : s.rsp = none) (r : Response) : (afterResponse s r).HistoryAgrees := by
  have hadded := afterResponse_responses r hr
  have hok : AllOk s.responses := h.1 hf
  cases r with
  | ok bytes =>
    refine ⟨fun _ => ?_, fun hfault => absurd (hf.symm.trans hfault) Bool.false_ne_true⟩
    rw [hadded]
    exact hok.append_ok bytes
  | fault c => exact ⟨nofun, fun _ => ⟨s.responses, hok, hadded⟩⟩

/-- Settles O53: reset clears the history, an accepted request adds its response, and every other step
keeps FAULT, CAUSE and the responses. -/
theorem stepKeepsHistory : Obligations.StepKeepsHistory := by
  refine ⟨historyAgrees_applyReset State.reset, fun s t hhist hstep => ?_⟩
  refine step_next_elim (P := State.HistoryAgrees) hstep (reset := fun rest _ => ?reset)
    (waits := fun _ => hhist) (accepts := fun word rest _ hf hr => ?accepts)
    (takes := fun rest _ => ?takes) (samples := fun rest _ => hhist)
  case reset => exact historyAgrees_applyReset _
  case accepts => exact State.HistoryAgrees.afterResponse (s := { s with script := rest }) hhist hf hr _
  case takes => exact State.HistoryAgrees.deliver (s := { s with script := rest }) hhist

/-! ### The faulted block -/

/-- After reset a block whose host does nothing is idle (R87). -/
theorem step_idle {s : State} (hw : s.wasReset = true) (hs : s.script = []) : step s = idle s := by
  simp [step, hs, afterFirstReset, hw]

/-- A block with FAULT = 1 whose host does nothing is stuck (R81). -/
theorem step_idle_faulted {s : State} (hw : s.wasReset = true) (hf : s.fault = true)
    (hs : s.script = []) : step s = .fault .stuck := by
  rw [step_idle hw hs, idle, if_pos hf]

/-- What a step keeps of a block with FAULT = 1 whose host has no reset to come (R81). -/
theorem step_keeps_faulted {s t : State} (hf : s.fault = true) (hreset : .reset ∉ s.script)
    (h : step s = .next t) :
    SameArchitecture s t ∧ t.responses = s.responses ∧ .reset ∉ t.script := by
  refine step_next_elim h
    (P := fun t => SameArchitecture s t ∧ t.responses = s.responses ∧ .reset ∉ t.script)
    (reset := fun rest hs => ?reset) (waits := fun hready => ?waits)
    (accepts := fun word rest _ hready _ => ?accepts) (takes := fun rest hs => ?takes)
    (samples := fun rest hs => ?samples)
  case reset => simp [hs] at hreset
  case waits | accepts => exact absurd (hready.symm.trans hf) Bool.false_ne_true
  case takes =>
    exact ⟨⟨rfl, rfl, rfl, rfl⟩, deliver_responses _, fun hmem => hreset (hs ▸ .tail _ hmem)⟩
  case samples => exact ⟨⟨rfl, rfl, rfl, rfl⟩, rfl, fun hmem => hreset (hs ▸ .tail _ hmem)⟩

theorem SameArchitecture.trans {s t u : State} (hst : SameArchitecture s t)
    (htu : SameArchitecture t u) : SameArchitecture s u := by
  obtain ⟨hfault, hcause, holen, hobuf⟩ := hst
  obtain ⟨hfault', hcause', holen', hobuf'⟩ := htu
  exact ⟨hfault'.trans hfault, hcause'.trans hcause, holen'.trans holen, hobuf'.trans hobuf⟩

/-- A run of one step more that answers a next state takes its first step to one. -/
theorem runSteps_succ_next {k : Nat} {s u : State} (h : runSteps (k + 1) s = .next u) :
    ∃ t, step s = .next t ∧ runSteps k t = .next u := by
  simp only [runSteps, Host.Core.run] at h
  split at h
  · exact ⟨_, ‹_›, h⟩
  all_goals cases h

/-- What a run with no reset keeps of a block with FAULT = 1 (R81). -/
theorem runSteps_keeps_faulted {k : Nat} {s t : State} (hf : s.fault = true)
    (hreset : .reset ∉ s.script) (h : runSteps k s = .next t) :
    SameArchitecture s t ∧ t.responses = s.responses := by
  induction k generalizing s with
  | zero =>
    obtain rfl : s = t := Host.Outcome.next.inj h
    exact ⟨⟨rfl, rfl, rfl, rfl⟩, rfl⟩
  | succ k ih =>
    obtain ⟨u, hstep, hrun⟩ := runSteps_succ_next h
    obtain ⟨hsame, hresponses, hreset'⟩ := step_keeps_faulted hf hreset hstep
    have hf' : u.fault = true := hsame.1.trans hf
    obtain ⟨hsame', hresponses'⟩ := ih hf' hreset' hrun
    exact ⟨hsame.trans hsame', hresponses'.trans hresponses⟩

/-- Settles O48: FAULT = 1 stops an ENCODE, a request and an idle block, and the steps that remain, those
that take or sample a response, keep the architecture and the responses. -/
theorem faultedBlockIsStuck : Obligations.FaultedBlockIsStuck := by
  refine ⟨fun s hf => by simp [ports, hf], fun s v n hf => exec_encode_faulted v n hf,
    fun s hw hf hs => step_idle_faulted hw hf hs, fun s word rest hw hf hs => ?_,
    fun k s t hf hreset hrun => ?_⟩
  · rw [step_request hw hs, presentRequest_faulted word rest hf]
  · obtain ⟨hsame, hresponses⟩ := runSteps_keeps_faulted hf hreset hrun
    exact ⟨hsame.1.trans hf, hsame, hresponses⟩

end Sys2Proof.Machine
end

section
/-! PROOF. The operands and the required byte count (spec/41_input_validator.md R51,
spec/42_leading_zero_counter.md R53 to R56, spec/43_byte_width_checker.md R61, R62). -/

namespace Sys2Proof.Machine

variable {w : Nat}

/-- All bits are zero exactly when the number is. -/
theorem forall_getLsbD_false_iff (v : BitVec w) : (∀ k : Fin w, v.getLsbD k = false) ↔ v.toNat = 0 := by
  constructor
  · intro h
    obtain rfl : v = 0#w := BitVec.eq_of_getLsbD_eq fun k hk => by simpa using h ⟨k, hk⟩
    simp
  · intro h k
    rw [BitVec.getLsbD, h, Nat.zero_testBit]

/-- A vector is not positive exactly when it is negative or its number is 0. -/
theorem sint_nonpos_iff (v : BitVec w) : sint v ≤ 0 ↔ sint v < 0 ∨ v.toNat = 0 := by
  rw [le_iff_lt_or_eq]
  refine or_congr_right' fun hneg => ?_
  rw [(sint_nonneg (not_lt.1 hneg)).2, Int.natCast_eq_zero]

theorem zeroWidthFail_iff (n : BitVec w) : zeroWidthFail n = true ↔ sint n ≤ 0 := by
  rw [sint_nonpos_iff, sint_neg_iff, ← forall_getLsbD_false_iff]
  simp [zeroWidthFail]

/-- Settles O8: the top bit is the sign, and the bits are all zero exactly at 0. -/
theorem signTestsOnBits : Obligations.SignTestsOnBits :=
  fun _ v n => ⟨zeroWidthFail_iff n, (sint_neg_iff v).symm⟩

/-- The bit length of a non-negative operand is that of its value (R53). -/
theorem bitLength_eq_sint {v : BitVec w} (hv : 0 ≤ sint v) : bitLength v = bitlen (sint v).toNat := by
  rw [bitLength_eq, sint_toNat hv]

/-- A number of positive bit length b is at least 2^(b-1). -/
theorem two_pow_le_of_bitlen_pos {n : Nat} (h : 1 ≤ bitlen n) : 2 ^ (bitlen n - 1) ≤ n := by
  by_contra hlt
  have := (lt_two_pow_iff_bitlen_le n (bitlen n - 1)).1 (not_le.1 hlt)
  omega

theorem one_le_bitlen {n : Nat} (h : 0 < n) : 1 ≤ bitlen n := by
  rw [bitlen, if_neg h.ne']
  omega

/-- Settles O10: `bitlen` is the least number of bits that hold the value, and XLEN-1 bits hold every
non-negative operand. -/
theorem bitLengthOfValue : Obligations.BitLengthOfValue := by
  intro w v hv
  have hlength := bitLength_eq_sint hv
  have hrange : bitlen (sint v).toNat ≤ w - 1 := by
    rw [← lt_two_pow_iff_bitlen_le, sint_toNat hv]
    exact toNat_lt_half hv
  rw [hlength]
  generalize sint v = value at hv hrange ⊢
  lift value to ℕ using hv
  rw [Int.toNat_natCast] at hrange ⊢
  refine ⟨rfl, hrange, fun hzero => ?_, fun hpos => ⟨?_, ?_, ?_⟩⟩
  · rw [Int.natCast_eq_zero.1 hzero, bitlen, if_pos rfl]
  · exact one_le_bitlen (by omega)
  · exact_mod_cast two_pow_le_of_bitlen_pos (one_le_bitlen (by omega))
  · exact_mod_cast (lt_two_pow_iff_bitlen_le value _).2 le_rfl

/-- The logarithm of the source's formula, against a whole number of bytes. -/
theorem logb_div_eight_le_iff (m k : Nat) :
    Real.logb 2 ((m : ℝ) + 1) / 8 ≤ k ↔ m < 256 ^ k := by
  calc Real.logb 2 ((m : ℝ) + 1) / 8 ≤ k
      ↔ Real.logb 2 ((m : ℝ) + 1) ≤ (8 * k : Nat) := by
        rw [div_le_iff₀ (by norm_num)]; push_cast; rw [mul_comm]
    _ ↔ (m : ℝ) + 1 ≤ 2 ^ (8 * k) := by
        rw [Real.logb_le_iff_le_rpow (by norm_num) (by positivity), Real.rpow_natCast]
    _ ↔ m < 2 ^ (8 * k) := by
        rw [← Nat.succ_le_iff]; norm_cast
    _ ↔ m < 256 ^ k := by rw [pow_mul]; norm_num

/-- The source raises the value to 1, which changes no bound that a whole number of bytes gives. -/
theorem max_one_lt_iff {n k : Nat} (hk : 1 ≤ k) : max n 1 < 256 ^ k ↔ n < 256 ^ k := by
  have hone : 1 < 256 ^ k := Nat.one_lt_pow (by omega) (by norm_num)
  rw [max_lt_iff, and_iff_left hone]

/-- Settles O12: the ceiling and `reqbytes` have the same upper bounds: none below 1, and from 1 up the k
with n < 256^k. -/
theorem requiredBytesIsTheFormula : Obligations.RequiredBytesIsTheFormula := by
  intro n
  refine eq_of_forall_ge_iff fun k => ?_
  rw [Int.ceil_le]
  rcases le_or_gt k 0 with hk | hk
  · have hone := one_le_reqbytes n
    have hlog : 0 < Real.logb 2 ((max n 1 : Nat) + 1) / 8 :=
      div_pos (Real.logb_pos (by norm_num) (by norm_num)) (by norm_num)
    have hk' : (k : ℝ) ≤ 0 := by exact_mod_cast hk
    exact iff_of_false (by omega) (by linarith)
  · lift k to ℕ using hk.le
    have hk : 1 ≤ k := by omega
    rw [Nat.cast_le, reqbytes_le_iff n k hk, ← max_one_lt_iff hk, ← logb_div_eight_le_iff]
    norm_cast

/-- REQB of a non-negative operand is `reqbytes` of its value (R54). -/
theorem requiredBytes_eq_sint {v : BitVec w} (hv : 0 ≤ sint v) :
    requiredBytes v = reqbytes (sint v).toNat := by
  rw [requiredBytes_eq, sint_toNat hv]

/-- REQB counted in whole bytes of leading zeros (R56). -/
theorem requiredBytes_eq_lanes (v : BitVec w) (h8 : w % 8 = 0) :
    requiredBytes v = max 1 (w / 8 - (clz v >>> 3)) := by
  have hle := clz_le v
  rw [requiredBytes, bitLength, Nat.shiftRight_eq_div_pow, Nat.shiftRight_eq_div_pow]
  omega

/-- A number of m bits that are all 1 has bit length m. -/
theorem bitlen_two_pow_sub_one (m : Nat) : bitlen (2 ^ m - 1) = m := by
  refine eq_of_forall_ge_iff fun b => ?_
  have hpos := Nat.two_pow_pos m
  calc bitlen (2 ^ m - 1) ≤ b ↔ 2 ^ m - 1 < 2 ^ b := (lt_two_pow_iff_bitlen_le _ _).symm
    _ ↔ 2 ^ m ≤ 2 ^ b := by omega
    _ ↔ m ≤ b := Nat.pow_le_pow_iff_right (by norm_num)

/-- The largest operand, whose bits below the sign are all 1, needs every lane (R56). -/
theorem requiredBytes_largest {v : BitVec w} (h8 : w % 8 = 0) (hw : 8 ≤ w) (hv : 0 ≤ sint v)
    (hmax : sint v = 2 ^ (w - 1) - 1) : requiredBytes v = w / 8 := by
  have hpow : ((2 ^ (w - 1) : Nat) : Int) = 2 ^ (w - 1) := by push_cast; rfl
  have hnat : (sint v).toNat = 2 ^ (w - 1) - 1 := by omega
  rw [requiredBytes, bitLength_eq_sint hv, hnat, bitlen_two_pow_sub_one, Nat.shiftRight_eq_div_pow]
  omega

/-- Settles O13: the lanes bound REQB, which is the width in bytes less the whole bytes of leading zeros. -/
theorem requiredBytesByLanes : Obligations.RequiredBytesByLanes := by
  intro w v h8 hw hv
  refine ⟨le_max_left _ _, ?_, requiredBytes_eq_lanes v h8, requiredBytes_largest h8 hw hv⟩
  rw [requiredBytes_eq]
  exact reqbytes_le_width h8 hw

/-- Settles O14: REQB is at least 1 and at most obc, and obc is at most NMAX. -/
theorem paddingRange : Obligations.PaddingRange := by
  intro w nmax v n hcheck
  obtain ⟨hv, hreq, hcap⟩ := (failedCheck_none_iff nmax v n).1 hcheck
  have hone := one_le_reqbytes (sint v).toNat
  rw [padding, requiredBytes_eq_sint hv]
  omega

/-- Every byte count of at most NMAX has an operand pattern (R3). -/
theorem exists_sint_eq {c : Config} (hc : c.Legal) {k : Nat} (hk : k ≤ c.nmax) :
    ∃ n : BitVec c.xlen, sint n = k := by
  obtain ⟨-, hw, -, hmax⟩ := hc
  have hpow : ((2 ^ (c.xlen - 1) : Nat) : Int) = 2 ^ (c.xlen - 1) := by push_cast; rfl
  have hpos := Nat.two_pow_pos (c.xlen - 1)
  exact ⟨_, sint_ofInt (by omega) (n := k) ⟨by omega, by omega⟩⟩

/-- Settles O15: no check fails exactly when reqbytes(value) ≤ obc ≤ NMAX, and a legal NMAX leaves room
for reqbytes(value) itself. -/
theorem everyValueHasAnEncoding : Obligations.EveryValueHasAnEncoding := by
  intro c v hc hv
  have hpasses (n : BitVec c.xlen) (hreq : (reqbytes (sint v).toNat : Int) ≤ sint n)
      (hcap : sint n ≤ c.nmax) : failedCheck c.nmax v n = none :=
    (failedCheck_none_iff _ v n).2 ⟨hv, hreq, hcap⟩
  refine ⟨?_, hpasses, fun n hn hcap => ?_⟩
  · have hroom := reqbytes_le_nmax hc hv
    obtain ⟨n, hn⟩ := exists_sint_eq hc hroom
    exact ⟨n, hpasses n (by omega) (by omega)⟩
  · calc failedCheck c.nmax v n = none ↔ ¬ sint n < reqbytes (sint v).toNat := by
          rw [failedCheck_none_iff, PassesChecks, not_lt]
          tauto
      _ ↔ sint v < 256 ^ (sint n).toNat := by rw [lt_reqbytes_iff (by omega) hv, not_le]

end Sys2Proof.Machine
end

section
/-! PROOF. The causes and the outcomes (spec/30_encoding.md R35, spec/60_exceptions.md R72). -/

namespace Sys2Proof.Machine

/-- The cause of a code (R72); CAUSE takes no code above 4. -/
def causeOfCode (code : BitVec 3) : Cause :=
  match code.toNat with
  | 0 => .none
  | 1 => .zeroWidth
  | 2 => .negativeValue
  | 3 => .insufficientWidth
  | _ => .capacity

theorem causeOfCode_causeCode (c : Cause) : causeOfCode (causeCode c) = c := by
  cases c <;> rfl

/-- Settles O27: a code gives its cause back. -/
theorem causeCodes : Obligations.CauseCodes :=
  ⟨rfl, rfl, rfl, rfl, rfl, fun _ _ h => Function.LeftInverse.injective causeOfCode_causeCode h⟩

/-- The row of the outcome table for two operands, the tests in the order of R78 (R35). -/
def outcomeRow (nmax : Nat) (v n : Int) : Fin 5 :=
  if n ≤ 0 then 0
  else if v < 0 then 1
  else if n < reqbytes v.toNat then 2
  else if (nmax : Int) < n then 3
  else 4

/-- Settles O30: the condition of a row holds exactly of the operands whose first failing test is that
row's; REQB ≥ 1 keeps the rows without obc > 0 apart from the first. -/
theorem outcomesPartition : Obligations.OutcomesPartition := by
  intro nmax v n
  have hone := one_le_reqbytes v.toNat
  refine (existsUnique_congr fun k => ?_).2 (existsUnique_eq (a' := outcomeRow nmax v n))
  unfold outcomeRow
  split_ifs with hn hv hreq hcap
  all_goals fin_cases k <;> simp <;> omega

end Sys2Proof.Machine
end

section
/-! PROOF. The bytes of a result and the effect of ENCODE (spec/44_byte_packer.md R65 to R69,
spec/40_encode.md R40 to R44, spec/20_memory.md R28). -/

namespace Sys2Proof.Machine

/-! ### The packer -/

/-- A result byte above every byte of the value is 0 (R64). -/
theorem resultByte_eq_zero {v n i : Nat} (h : v < 256 ^ (n - 1 - i)) : resultByte v n i = 0 := by
  apply BitVec.eq_of_toNat_eq
  rw [resultByte_toNat, Nat.div_eq_of_lt h]
  rfl

/-- Byte lane k as a number (R67). -/
theorem byteLane_toNat {w : Nat} {v : BitVec w} {k : Nat} (hk : k < w / 8) :
    (byteLane v k).toNat = v.toNat / 256 ^ k % 256 := by
  rw [byteLane, if_pos hk, BitVec.extractLsb'_toNat, Nat.shiftRight_eq_div_pow, pow_mul]
  norm_num

/-- A vector has no bits above its last byte lane. -/
theorem toNat_lt_of_no_lane {w : Nat} (v : BitVec w) {k : Nat} (h8 : w % 8 = 0) (hk : w / 8 ≤ k) :
    v.toNat < 256 ^ k := by
  calc v.toNat < 2 ^ w := v.isLt
    _ ≤ 2 ^ (8 * k) := Nat.pow_le_pow_right (by norm_num) (by omega)
    _ = 256 ^ k := by rw [pow_mul]; norm_num

/-- Settles O16: the shift by 8(obc-1-i) selects that lane, and gives 0 beyond the last one. -/
theorem bitSliceForm : Obligations.BitSliceForm := by
  intro w v obc i h8 hv _
  rw [sint_toNat hv]
  by_cases hk : obc - 1 - i < w / 8
  · apply BitVec.eq_of_toNat_eq
    rw [resultByte_toNat, byteLane_toNat hk]
  · rw [byteLane, if_neg hk, resultByte_eq_zero (toNat_lt_of_no_lane v h8 (not_lt.1 hk))]

/-- A value that fits in r bytes is, in p bytes more, those bytes after p zeros (R65). -/
theorem packBytes_pad {v r : Nat} (p : Nat) (h : v < 256 ^ r) :
    packBytes v (p + r) = List.replicate p 0 ++ packBytes v r := by
  rw [packBytes, List.range_add, List.map_append, List.map_map]
  congr 1
  · rw [List.eq_replicate_iff]
    refine ⟨by simp, fun b hb => ?_⟩
    obtain ⟨i, hi, rfl⟩ := List.mem_map.1 hb
    have hi : i < p := List.mem_range.1 hi
    exact resultByte_eq_zero (h.trans_le (Nat.pow_le_pow_right (by norm_num) (by omega)))
  · refine List.map_congr_left fun i _ => ?_
    have hshift : p + r - 1 - (p + i) = r - 1 - i := by omega
    rw [Function.comp_apply, resultByte, resultByte, hshift]

/-- The bytes of 0 are zeros. -/
theorem packBytes_zero (n : Nat) : packBytes 0 n = List.replicate n 0 := by
  simpa [packBytes] using packBytes_pad (v := 0) (r := 0) n (by norm_num)

/-- The result read back is the value's part that fits in its bytes (R68). -/
theorem os2ip_packBytes (v n : Nat) : os2ip (packBytes v n) = v % 256 ^ n := by
  induction n generalizing v with
  | zero => simp [packBytes, os2ip, Nat.mod_one]
  | succ n ih =>
    rw [packBytes_succ, os2ip_append_singleton, ih, pow_succ', Nat.mod_mul, BitVec.toNat_ofNat]
    omega

theorem packBytes_head? (v : Nat) {n : Nat} (hn : 0 < n) :
    (packBytes v n).head? = some (resultByte v n 0) := by
  rw [List.head?_eq_getElem?, List.getElem?_eq_getElem (by simpa using hn), packBytes_getElem]

theorem lt_pow_reqbytes (v : Nat) : v < 256 ^ reqbytes v :=
  (reqbytes_le_iff v _ (one_le_reqbytes v)).1 le_rfl

/-- The first byte of a positive value in exactly reqbytes(value) bytes is not 0: one byte fewer would not
hold it (R65). -/
theorem resultByte_first_ne_zero {v : Nat} (h : 1 ≤ v) : resultByte v (reqbytes v) 0 ≠ 0 := by
  have hone := one_le_reqbytes v
  have hlower : 256 ^ (reqbytes v - 1) ≤ v := by
    rcases Nat.eq_zero_or_pos (reqbytes v - 1) with hzero | hpos
    · rwa [hzero, pow_zero]
    · by_contra hlt
      have := (reqbytes_le_iff v _ hpos).2 (not_le.1 hlt)
      omega
  have hdigit : v / 256 ^ (reqbytes v - 1) < 256 := by
    rw [Nat.div_lt_iff_lt_mul (by positivity), ← pow_succ', Nat.sub_add_cancel hone]
    exact lt_pow_reqbytes v
  have hdigit' : 0 < v / 256 ^ (reqbytes v - 1) := Nat.div_pos hlower (by positivity)
  intro hbyte
  have hnat := congrArg BitVec.toNat hbyte
  rw [resultByte_toNat, Nat.sub_zero, Nat.mod_eq_of_lt hdigit] at hnat
  exact hdigit'.ne' hnat

/-! ### OK responses -/

/-- The value of operands that pass the checks fits in obc bytes (R59). -/
theorem PassesChecks.lt {nmax : Nat} {v n : Int} (h : PassesChecks nmax v n) :
    v.toNat < 256 ^ n.toNat := by
  obtain ⟨-, hreq, -⟩ := h
  have hone := one_le_reqbytes v.toNat
  exact (reqbytes_le_iff _ _ (by omega)).1 (by omega)

/-- An OK response read back is the value (R68). -/
theorem os2ip_of_response_ok {nmax : Nat} {v n : Int} {bytes : List Byte}
    (h : response nmax v n = .ok bytes) : (os2ip bytes : Int) = v := by
  obtain ⟨hpasses, rfl⟩ := response_ok_cases h
  rw [os2ip_packBytes, Nat.mod_eq_of_lt hpasses.lt]
  exact Int.toNat_of_nonneg hpasses.1

/-- The OK responses to one value differ in leading zeros only (R69). -/
theorem response_ok_pad {nmax : Nat} {v n m : Int} {short long : List Byte}
    (hn : response nmax v n = .ok short) (hm : response nmax v m = .ok long) (hle : n ≤ m) :
    long = List.replicate (long.length - short.length) 0 ++ short := by
  obtain ⟨hpasses, rfl⟩ := response_ok_cases hn
  obtain ⟨-, rfl⟩ := response_ok_cases hm
  have hpad := packBytes_pad (m.toNat - n.toNat) hpasses.lt
  rw [Nat.sub_add_cancel (by omega)] at hpad
  rw [packBytes_length, packBytes_length]
  exact hpad

/-! ### ENCODE -/

/-- Everything `exec` of ENCODE can answer with a next state. -/
theorem exec_encode_next {s t : State} {xlen : Nat} {v n : BitVec xlen}
    (h : exec (.encode xlen v n) s = .next t) :
    xlen = s.cfg.xlen ∧ s.fault = false ∧
      t = afterResponse s (response s.cfg.nmax (sint v) (sint n)) :=
  execEncode_next h

/-- An ENCODE whose response is OK: the response function answers it, and the state holds its bytes. -/
theorem exec_encode_ok {s t : State} {xlen : Nat} {v n : BitVec xlen} {bytes : List Byte}
    (h : exec (.encode xlen v n) s = .next t) (hrsp : t.rsp = some (.ok bytes)) :
    xlen = s.cfg.xlen ∧ s.fault = false ∧ response s.cfg.nmax (sint v) (sint n) = .ok bytes ∧
      t = afterResponse s (.ok bytes) := by
  obtain ⟨hx, hf, rfl⟩ := exec_encode_next h
  rw [afterResponse_rsp, Option.some.injEq] at hrsp
  exact ⟨hx, hf, hrsp, by rw [hrsp]⟩

/-- The bytes of an OK response stand in OBUF from index 0 up (R63). -/
theorem readByte_afterResponse_ok {s : State} {bytes : List Byte} (hn : bytes.length ≤ s.cfg.nmax)
    {i : Nat} (hi : i < bytes.length) : readByte (afterResponse s (.ok bytes)) i = .ok bytes[i] :=
  readByte_cells (s := afterResponse s (.ok bytes)) rfl rfl hn hi

/-- Settles O17: the window is the value in REQB bytes, and obc = PAD + REQB. -/
theorem paddingThenWindow : Obligations.PaddingThenWindow := by
  intro s t v n bytes h hrsp
  obtain ⟨-, -, hresp, -⟩ := exec_encode_ok h hrsp
  obtain ⟨⟨hv, hreq, -⟩, rfl⟩ := response_ok_cases hresp
  have hone := one_le_reqbytes (sint v).toNat
  have hfits := lt_pow_reqbytes (sint v).toNat
  have hobc : (sint n).toNat = (padding v n).toNat + reqbytes (sint v).toNat := by
    rw [padding, requiredBytes_eq_sint hv]
    omega
  rw [requiredBytes_eq_sint hv]
  refine ⟨packBytes (sint v).toNat (reqbytes (sint v).toNat), ?_, packBytes_length _ _, ?_,
    fun hpos b hb => ?_, fun hzero b hb => ?_⟩
  · rw [← packBytes_pad _ hfits, hobc]
  · rw [os2ip_packBytes, Nat.mod_eq_of_lt hfits]
    exact Int.toNat_of_nonneg hv
  · obtain rfl := Option.some.inj ((packBytes_head? _ hone).symm.trans hb)
    exact resultByte_first_ne_zero (by omega)
  · rw [hzero, Int.toNat_zero, packBytes_zero] at hb
    exact List.eq_of_mem_replicate hb

/-- Settles O18: the bytes are those of an OK response, and they stand in OBUF. -/
theorem roundTripLaw : Obligations.RoundTripLaw := by
  intro s t v n bytes h hrsp
  obtain ⟨-, -, hresp, rfl⟩ := exec_encode_ok h hrsp
  exact ⟨os2ip_of_response_ok hresp, response_ok_length hresp,
    fun i hi => readByte_afterResponse_ok (response_ok_length_le hresp) hi⟩

/-- Settles O19: equal bytes read back as equal values, and a longer result only has more zeros. -/
theorem canonicalForm : Obligations.CanonicalForm := by
  refine ⟨fun s t u v₁ v₂ n bytes ht hrt hu hru => ?_,
    fun s t u v n m short long ht hrt hu hru hle => ?_⟩
  · obtain ⟨-, -, hresp₁, -⟩ := exec_encode_ok ht hrt
    obtain ⟨-, -, hresp₂, -⟩ := exec_encode_ok hu hru
    have hsint : sint v₁ = sint v₂ :=
      (os2ip_of_response_ok hresp₁).symm.trans (os2ip_of_response_ok hresp₂)
    rw [sint_eq_toInt, sint_eq_toInt] at hsint
    exact BitVec.toInt_inj.1 hsint
  · obtain ⟨-, -, hshort, -⟩ := exec_encode_ok ht hrt
    obtain ⟨-, -, hlong, -⟩ := exec_encode_ok hu hru
    exact response_ok_pad hshort hlong hle

@[simp] theorem afterResponse_wasReset (s : State) (r : Response) :
    (afterResponse s r).wasReset = s.wasReset := by
  cases r <;> rfl

/-- No index at or above OLEN has a value (R9). -/
theorem readByte_ne_ok_of_olen_le {s : State} {i : Nat} (h : s.olen ≤ i) (b : Byte) :
    readByte s i ≠ .ok b := by
  rw [readByte_beyond h]
  exact nofun

/-- Settles O21: `afterResponse` writes the response, OLEN, OBUF and, for a FAULT, FAULT and CAUSE. -/
theorem encodeFrame : Obligations.EncodeFrame := by
  intro s t v n h
  obtain ⟨-, -, rfl⟩ := exec_encode_next h
  generalize response s.cfg.nmax (sint v) (sint n) = r
  refine ⟨by simp, by simp, by simp, by simp, fun bytes hrsp => ?_, fun c hrsp => ?_⟩ <;>
    obtain rfl := Option.some.inj ((afterResponse_rsp s r).symm.trans hrsp)
  · exact ⟨rfl, rfl, fun i b hi => readByte_ne_ok_of_olen_le hi b⟩
  · exact readByte_ne_ok_of_olen_zero rfl

/-- Settles O22: `exec` leaves `afterResponse` of the response function's response. -/
theorem responseFunction : Obligations.ResponseFunction :=
  fun _ v n hf => ⟨_, exec_encode_eq v n rfl hf, afterResponse_rsp _ _⟩

theorem mem_cellsFrom_zero {bytes : List Byte} {cell : Host.Cell} (h : cell ∈ cellsFrom 0 bytes) :
    cell.1 < bytes.length := by
  have haddr := List.mem_map_of_mem (f := Prod.fst) h
  rw [cellsFrom_fst, ← List.range_eq_range'] at haddr
  exact List.mem_range.1 haddr

/-- Settles O31: ENCODE stops with the fault stuck only, and what it stores is an OK response's bytes, at
most NMAX of them, or nothing. -/
theorem noStoreOutsideTheBuffer : Obligations.NoStoreOutsideTheBuffer := by
  refine fun s v n => ⟨fun f => execEncode_stops, fun t h cell hcell => ?_⟩
  obtain ⟨-, -, rfl⟩ := exec_encode_next h
  cases hresp : response s.cfg.nmax (sint v) (sint n) with
  | ok bytes =>
    rw [hresp] at hcell
    exact (mem_cellsFrom_zero hcell).trans_le (response_ok_length_le hresp)
  | fault c =>
    rw [hresp] at hcell
    exact absurd hcell List.not_mem_nil

/-- Settles O32: `exec` tests the width first. -/
theorem otherWidthRefused : Obligations.OtherWidthRefused :=
  fun _ _ _ _ hw => if_pos hw

/-- Settles O34: the response function does not read what the first request left, and OLEN and OBUF are
those of the same bytes. -/
theorem encodeIsIdempotent : Obligations.EncodeIsIdempotent := by
  intro s t i bytes h hrsp
  cases i with
  | encode xlen v n =>
    obtain ⟨hx, hf, hresp, rfl⟩ := exec_encode_ok h hrsp
    have hagain := exec_encode_eq (s := deliver (afterResponse s (.ok bytes))) v n hx hf
    rw [show (deliver (afterResponse s (.ok bytes))).cfg = s.cfg from rfl, hresp] at hagain
    exact ⟨_, hagain, rfl, rfl, rfl, rfl, rfl⟩

end Sys2Proof.Machine
end

section
/-! PROOF. The host's acts one by one (spec/10_state.md R18, spec/20_memory.md R25,
spec/60_exceptions.md R87, R88, spec/70_reset_and_hazards.md R92 to R97). -/

namespace Sys2Proof.Machine

/-! ### Requests -/

/-- A request presented while no response waits is executed as the instruction it decodes to, which is
stuck with FAULT = 1 as the request is (R46). -/
theorem presentRequest_decoded {s : State} {word : RequestWord} {rest : List HostAct} {i : Instr}
    (hr : s.rsp = none) (hd : decode s.cfg word = .ok i) :
    presentRequest word rest s = exec i { s with script := rest } := by
  by_cases hf : s.fault = true
  · obtain ⟨-, rfl⟩ := decode_eq_ok_iff.1 hd
    rw [presentRequest_faulted word rest hf]
    exact (exec_encode_faulted (s := { s with script := rest }) _ _ hf).symm
  · simp [presentRequest, hf, hr, hd]

/-- Settles O35: a step hands the request to `presentRequest`. -/
theorem stepRunsTheDecodedRequest : Obligations.StepRunsTheDecodedRequest := by
  intro s word rest i hw hr hs hd
  rw [step_request hw hs, presentRequest_decoded hr hd]

/-- Settles O36: `withFetchWord` leaves no response waiting and the table's word at the head of the
script. -/
theorem tableWordRunsNext : Obligations.TableWordRunsNext := by
  intro s nbits w i hw hd
  refine ⟨?_, fun hc => ?_⟩
  · rw [step_request (s := s.withFetchWord nbits w) hw rfl,
      presentRequest_decoded (s := s.withFetchWord nbits w) rfl hd]
    rfl
  · rw [hc] at hd
    rw [decodeTableWord, hd]
    rfl

/-- A request presented while a response waits is not accepted (R18, R94). -/
theorem presentRequest_waits {s : State} (word : RequestWord) (rest : List HostAct) {r : Response}
    (hf : s.fault = false) (hr : s.rsp = some r) : presentRequest word rest s = .next s := by
  simp [presentRequest, hf, hr]

/-- Settles O40: the request waits. -/
theorem nextRequestWaitsForDelivery : Obligations.NextRequestWaitsForDelivery := by
  intro s word rest r hw hf hr hs
  rw [step_request hw hs, presentRequest_waits word rest hf hr]

theorem reqValid_iff (s : State) :
    reqValid s = true ↔ ∃ word rest, s.script = .request word :: rest := by
  unfold reqValid
  split
  next word rest hs => simp [hs]
  next hs => simpa using fun word rest => hs word rest

/-- Settles O59: where `req_ready` is 0, FAULT = 1 stops the request or a response makes it wait. -/
theorem requestPortIsTheNextAct : Obligations.RequestPortIsTheNextAct := by
  refine fun s => ⟨reqValid_iff s, fun hw hvalid hready => ?_⟩
  obtain ⟨word, rest, hs⟩ := (reqValid_iff s).1 hvalid
  rw [step_request hw hs]
  cases hf : s.fault with
  | true => exact .inr (presentRequest_faulted word rest hf)
  | false =>
    cases hr : s.rsp with
    | some r => exact .inl (presentRequest_waits word rest hf hr)
    | none => simp [(ports_idle hf hr).1] at hready

/-! ### The other acts -/

/-- A response sampled after reset is read where there is one (R25, R97). -/
theorem step_readResponse {s : State} {rest : List HostAct} (hw : s.wasReset = true)
    (hs : s.script = .readResponse :: rest) : step s = readResponse rest s := by
  simp [step, hs, perform, afterFirstReset, hw]

/-- A breach of R93 after reset is refused (R97). -/
theorem step_unstable {s : State} {shown : RequestWord} {later : Option RequestWord}
    {rest : List HostAct} (hw : s.wasReset = true) (hs : s.script = .unstable shown later :: rest) :
    step s = .refused .unstableRequest := by
  simp [step, hs, perform, afterFirstReset, hw]

/-- Settles O41: a take is `deliver`, which writes the channel and the record of responses only. -/
theorem deliveryChangesNoArchitecture : Obligations.DeliveryChangesNoArchitecture := by
  refine ⟨fun s rest hw hs => ?_, fun s rest r hw hr hs => ?_⟩
  · exact ⟨_, step_take hw hs, ⟨rfl, rfl, rfl, rfl⟩, rfl, rfl, rfl, by simp [ports]⟩
  · rw [step_readResponse hw hs, readResponse, if_pos (by simp [hr])]

/-- Settles O42: with no act to perform, `idle` answers the same state. -/
theorem idleBlockWaits : Obligations.IdleBlockWaits := by
  intro s hw hf hs
  rw [step_idle hw hs, idle, if_neg (by simp [hf])]

/-- Before the first reset every act that asks for it is refused (R92). -/
theorem afterFirstReset_refuses {s : State} (hw : s.wasReset = false)
    (o : Host.Outcome State Fault Refusal) : afterFirstReset s o = .refused .beforeFirstReset := by
  simp [afterFirstReset, hw]

/-- Settles O45: each act but reset is performed under `afterFirstReset`, and so is doing nothing. -/
theorem nothingBeforeTheFirstReset : Obligations.NothingBeforeTheFirstReset := by
  intro s hw hhead
  unfold step
  split
  next => exact afterFirstReset_refuses hw _
  next act rest hs =>
    cases act with
    | reset => exact absurd (by rw [hs]; rfl) hhead
    | request | take | readResponse | unstable => exact afterFirstReset_refuses hw _

/-- Settles O46: both breaches have a refusal of their own. -/
theorem handshakeBreachRefused : Obligations.HandshakeBreachRefused := by
  refine fun s rest hw => ⟨fun shown later hs => step_unstable hw hs, fun hs hr => ?_⟩
  rw [step_readResponse hw hs, readResponse, if_neg (by simp [hr])]

/-! ### Several blocks -/

/-- A step of block k that answers puts its next state in place k, if the list has a place k. -/
theorem stepInstance_next {k : Nat} {blocks after : List State}
    (h : stepInstance k blocks = .next after) :
    (blocks[k]? = none ∧ after = blocks) ∨
      ∃ s t, blocks[k]? = some s ∧ step s = .next t ∧ after = blocks.set k t := by
  unfold stepInstance at h
  split at h
  next hk => exact .inl ⟨hk, (Host.Outcome.next.inj h).symm⟩
  next s hk =>
    split at h
    next t ht => exact .inr ⟨s, t, hk, ht, (Host.Outcome.next.inj h).symm⟩
    all_goals cases h

/-- Settles O58: only place k of the list is set. -/
theorem instancesShareNothing : Obligations.InstancesShareNothing := by
  intro k blocks after h
  obtain ⟨hk, rfl⟩ | ⟨s, t, hk, ht, rfl⟩ := stepInstance_next h
  · exact ⟨rfl, fun _ _ => rfl, fun s hs => by simp [hk] at hs⟩
  · have hlt : k < blocks.length := (List.getElem?_eq_some_iff.1 hk).1
    refine ⟨List.length_set, fun j hj => List.getElem?_set_ne (Ne.symm hj), fun s' hs' => ?_⟩
    obtain rfl := Option.some.inj (hk.symm.trans hs')
    exact ⟨t, ht, List.getElem?_set_self hlt⟩

end Sys2Proof.Machine
end

section
/-! PROOF. Runs of a program (spec/70_reset_and_hazards.md R98; spec/40_encode.md R40). -/

namespace Sys2Proof.Machine

/-- The state a request leaves when its response has been taken, two acts of the host later (R40). -/
def served (s : State) (word : RequestWord) : State :=
  deliver { afterResponse s (requestResponse s.cfg word) with script := s.script.drop 2 }

section
variable (s : State) (word : RequestWord)

@[simp] theorem served_cfg : (served s word).cfg = s.cfg := afterResponse_cfg _ _
@[simp] theorem served_rsp : (served s word).rsp = none := rfl
@[simp] theorem served_script : (served s word).script = s.script.drop 2 := rfl
@[simp] theorem served_wasReset : (served s word).wasReset = s.wasReset := afterResponse_wasReset _ _
@[simp] theorem served_delivered :
    (served s word).delivered = s.delivered ++ [requestResponse s.cfg word] := by
  simp [served]

end

/-- Presenting a request to a block that accepts and taking its response are two steps (log 4). -/
theorem runSteps_serve {s : State} {word : RequestWord} {rest : List HostAct} (k : Nat)
    (ha : s.Accepting) (hs : s.script = .request word :: .take :: rest)
    (hl : IsRequestWord s.cfg word) : runSteps (k + 2) s = runSteps k (served s word) := by
  have htake := step_take (s := afterResponse { s with script := .take :: rest }
    (requestResponse s.cfg word)) (rest := rest) (by simpa using ha.1) (by simp)
  rw [runSteps_succ (step_accepts ha hs hl), runSteps_succ htake, served, hs]
  cases requestResponse s.cfg word <;> rfl

/-- What the architecture is after a request that succeeds (R63, R64). -/
theorem served_ok {s : State} {word : RequestWord} {bytes : List Byte}
    (h : requestResponse s.cfg word = .ok bytes) :
    (served s word).fault = s.fault ∧ (served s word).cause = s.cause ∧
      (served s word).olen = bytes.length ∧
      ∀ (i : Nat) (hi : i < bytes.length), readByte (served s word) i = .ok bytes[i] := by
  rw [served, h]
  exact ⟨rfl, rfl, rfl, fun i hi => readByte_afterResponse_ok (response_ok_length_le h) hi⟩

/-- What the architecture is after a request that faults (R77). -/
theorem served_fault {s : State} {word : RequestWord} {c : Cause}
    (h : requestResponse s.cfg word = .fault c) :
    (served s word).fault = true ∧ (served s word).cause = c ∧ (served s word).olen = 0 := by
  rw [served, h]
  exact ⟨rfl, rfl, rfl⟩

/-- Settles O39: the two steps leave `served`. -/
theorem requestThenTakeIsOneAtomicStep : Obligations.RequestThenTakeIsOneAtomicStep := by
  intro s word rest ha hs hl
  refine ⟨served s word, runSteps_serve 0 ha hs hl, rfl, by simp [hs], by simp, by simp,
    fun c hresp => served_fault hresp, fun bytes hresp => ?_⟩
  obtain ⟨hfault, hcause, holen, hbytes⟩ := served_ok hresp
  exact ⟨hfault.trans ha.2.1, hcause, holen, hbytes⟩

/-! ### A list of requests -/

/-- A request word whose response is OK. -/
def Succeeds (c : Config) (word : RequestWord) : Prop :=
  IsRequestWord c word ∧ ∃ bytes, requestResponse c word = .ok bytes

theorem programActs_cons (word : RequestWord) (words : List RequestWord) :
    programActs (word :: words) = .request word :: .take :: programActs words := rfl

theorem programActs_append (words later : List RequestWord) :
    programActs (words ++ later) = programActs words ++ programActs later :=
  List.flatMap_append

@[simp] theorem foldl_served_cfg (words : List RequestWord) (s : State) :
    (words.foldl served s).cfg = s.cfg := by
  induction words generalizing s with
  | nil => rfl
  | cons word words ih => rw [List.foldl_cons, ih, served_cfg]

theorem foldl_served_delivered (words : List RequestWord) (s : State) :
    (words.foldl served s).delivered = s.delivered ++ words.map (requestResponse s.cfg) := by
  induction words generalizing s with
  | nil => simp
  | cons word words ih => simp [ih]

theorem foldl_served_script {words : List RequestWord} {s : State} {rest : List HostAct}
    (hs : s.script = programActs words ++ rest) : (words.foldl served s).script = rest := by
  induction words generalizing s with
  | nil => exact hs
  | cons word words ih => exact ih (by rw [served_script, hs]; rfl)

/-- A block that accepts and serves a request that succeeds accepts again, with CAUSE as it was. -/
theorem Succeeds.served_accepting {s : State} {word : RequestWord} (h : Succeeds s.cfg word)
    (ha : s.Accepting) : (served s word).Accepting ∧ (served s word).cause = s.cause := by
  obtain ⟨-, bytes, hresp⟩ := h
  obtain ⟨hreset, hf, -⟩ := ha
  obtain ⟨hfault, hcause, -⟩ := served_ok hresp
  exact ⟨⟨by simpa using hreset, hfault.trans hf, rfl⟩, hcause⟩

theorem foldl_served_accepting {words : List RequestWord} {s : State} (ha : s.Accepting)
    (hgood : ∀ word ∈ words, Succeeds s.cfg word) :
    (words.foldl served s).Accepting ∧ (words.foldl served s).cause = s.cause := by
  induction words generalizing s with
  | nil => exact ⟨ha, rfl⟩
  | cons word words ih =>
    obtain ⟨hword, hwords⟩ := List.forall_mem_cons.1 hgood
    obtain ⟨haccepts, hcause⟩ := hword.served_accepting ha
    obtain ⟨haccepts', hcause'⟩ := ih haccepts (by simpa using hwords)
    exact ⟨haccepts', hcause'.trans hcause⟩

/-- A list of requests that succeed is served in two steps each, whatever the host does after it. -/
theorem runSteps_programActs {words : List RequestWord} {s : State} {rest : List HostAct} (k : Nat)
    (ha : s.Accepting) (hgood : ∀ word ∈ words, Succeeds s.cfg word)
    (hs : s.script = programActs words ++ rest) :
    runSteps (2 * words.length + k) s = runSteps k (words.foldl served s) := by
  induction words generalizing s with
  | nil => rw [List.length_nil, Nat.mul_zero, Nat.zero_add, List.foldl_nil]
  | cons word words ih =>
    obtain ⟨hword, hwords⟩ := List.forall_mem_cons.1 hgood
    obtain ⟨haccepts, -⟩ := hword.served_accepting ha
    have hsteps : 2 * (word :: words).length + k = (2 * words.length + k) + 2 := by
      rw [List.length_cons]
      omega
    rw [hsteps, runSteps_serve _ ha hs hword.1, List.foldl_cons]
    exact ih haccepts (by simpa using hwords) (by rw [served_script, hs]; rfl)

/-- Settles O54: serving the requests one after another leaves an accepting block, and the last one's
bytes in OBUF. -/
theorem runEndsWell : Obligations.RunEndsWell := by
  intro words s ha hcause hgood hs
  have hs : s.script = programActs words ++ [] := by rw [hs, List.append_nil]
  obtain ⟨⟨-, hfault, hrsp⟩, hkept⟩ := foldl_served_accepting ha hgood
  refine ⟨words.foldl served s, runSteps_programActs 0 ha hgood hs,
    ⟨foldl_served_script hs, hrsp, hfault⟩, hkept.trans hcause, foldl_served_delivered words s,
    fun hnil => by rw [hnil, List.foldl_nil], fun last bytes hlast hresp => ?_⟩
  obtain ⟨before, rfl⟩ := List.getLast?_eq_some_iff.1 hlast
  rw [List.foldl_append, List.foldl_cons, List.foldl_nil]
  obtain ⟨-, -, holen, hbytes⟩ :=
    served_ok (s := before.foldl served s) (by rwa [foldl_served_cfg])
  exact ⟨holen, hbytes⟩

/-- A faulted block is stuck at a program, whatever requests it has (R81). -/
theorem step_programActs_faulted {s : State} {words : List RequestWord} (hw : s.wasReset = true)
    (hf : s.fault = true) (hs : s.script = programActs words) : step s = .fault .stuck := by
  cases words with
  | nil => exact step_idle_faulted hw hf hs
  | cons word words => rw [step_request hw hs, presentRequest_faulted _ _ hf]

/-- Settles O55: the requests before the failing one leave an accepting block, which serves the failing
one by fault entry. -/
theorem runFaults : Obligations.RunFaults := by
  intro good later bad c s ha hcause hgood hl hresp hs
  rw [programActs_append, programActs_cons] at hs
  obtain ⟨haccepts, -⟩ := foldl_served_accepting ha hgood
  have hscript := foldl_served_script hs
  have hrun : runSteps (2 * good.length + 2) s = .next (served (good.foldl served s) bad) :=
    (runSteps_programActs 2 ha hgood hs).trans
      (runSteps_serve 0 haccepts hscript (by rwa [foldl_served_cfg]))
  obtain ⟨hfault, hcause', holen⟩ :=
    served_fault (s := good.foldl served s) (word := bad) (by rwa [foldl_served_cfg])
  refine ⟨_, hrun, hfault, hcause', holen, ?_, ?_⟩
  · rw [served_delivered, foldl_served_delivered, foldl_served_cfg, hresp]
  · exact step_programActs_faulted (words := later) (by simpa using haccepts.1) hfault
      (by rw [served_script, hscript]; rfl)

end Sys2Proof.Machine
end
